-- ==== Sys2Proof/Word.lean ====
section
/-! DEFINITION. The word types of the CDG decoder core: bytes, packs, cells, palette indices.

Every value of this hardware is an unsigned integer of a stated width (00_scope.md R14); bit `n` has weight `2^n` (R13).
A quantity the spec only counts with (coordinates, linear indices, byte addresses) is a `Nat`. -/

namespace Sys2Proof

/-- One byte: of a pack, of the pack stream, of the output framebuffer, or one colour channel. -/
abbrev Byte := BitVec 8

/-- One VRAM storage unit: six 4-bit lanes, exactly 24 bits (10_state.md R30; decision D1, CELL_BITS). -/
abbrev Cell := BitVec 24

/-- A palette index, 0 to 15 (10_state.md R29). -/
abbrev PaletteIndex := BitVec 4

/-- The low six bits of a pack byte, the only bits that carry meaning (30_encoding.md R72). -/
abbrev Symbol := BitVec 6

/-- One pack, `P[0]` to `P[23]`: the instruction of this hardware, always 24 bytes (30_encoding.md R70). -/
abbrev Pack := Vector Byte 24

end Sys2Proof
end

