-- ==== Sys2Proof/Config.lean ====
section
/-! DEFINITION. The implementation parameters: the fixed geometry (00_scope.md R7) and the constants of R8.

The spec leaves no value free (60_exceptions.md R201, 93_implementation_defined.md X1 to X6), so there is no opaque
constant here. -/

namespace Sys2Proof.Config

/-! ## Geometry, fixed by the document (R7)

The names are R7's. The definitions write these numbers as numerals, as the spec's own pseudocode does. -/

abbrev packBytes : Nat := 24
abbrev numXFonts : Nat := 50
abbrev numYFonts : Nat := 18
abbrev vramHeight : Nat := 216
abbrev vramWidthPx : Nat := 300
abbrev vramCells : Nat := 10800
abbrev dirtyFlags : Nat := 900
abbrev fontW : Nat := 6
abbrev fontH : Nat := 12
abbrev paletteEntries : Nat := 16
abbrev visXFonts : Nat := 48
abbrev visYFonts : Nat := 16
abbrev outW : Nat := 288
abbrev outH : Nat := 192
abbrev outStride : Nat := 1152
abbrev outBytes : Nat := 221184

/-- The command value of a graphics pack (R7, CMD_TV_GRAPHICS). -/
abbrev cmdTvGraphics : Symbol := 0x09#6

/-! ## Constants the spec's own decisions fix (R8) -/

/-- CELL_BITS, the width of `Cell` (decision D1). -/
abbrev cellBits : Nat := 24

/-- PACK_INDEX_WIDTH, the width of `current_pack` and of `target_index`: the spec's default. DESIGN CHOICE, log entry 5
(decision D11 leaves it a parameter). -/
abbrev packIndexWidth : Nat := 32

/-- ACTIVE_CHANNELS, hard-wired: bit `c` set means subcode channel `c` is acted upon (10_state.md R27; decision D4).
PRESUMED by the spec from general knowledge (passage G1), log entry 6. -/
def activeChannels : BitVec 16 := 0x0003#16

/-- ALPHA_OPAQUE, the alpha byte of every pixel written (R8; 20_memory.md R48). -/
def alphaOpaque : Byte := 0xFF#8

/-- ERR_OK (R8; decision D10). -/
def errOk : Nat := 0

/-- ERR_INSUFFICIENT_INPUT (R8; 60_exceptions.md R200; decision D10). -/
def errInsufficientInput : Nat := 1

end Sys2Proof.Config

namespace Sys2Proof

/-- A pack index: the type of `current_pack` and of `target_index` (10_state.md R22). -/
abbrev PackIndex := BitVec Config.packIndexWidth

end Sys2Proof
end

