-- ==== Sys2Proof/Syntax.lean ====
section
/-! DEFINITION. The instructions: one constructor for each row of spec/opcode_table.json (30_encoding.md R74, R75).

A constructor carries exactly the fields the spec gives the pack a meaning through; bits the spec calls ignored (R72, R73,
R80, R84) are no operand. -/

namespace Sys2Proof

/-- The three 4-bit components of one colour entry of a CLUT pack (30_encoding.md R77, R81). -/
structure Rgb4 where
  red   : BitVec 4
  green : BitVec 4
  blue  : BitVec 4
  deriving DecidableEq, Repr

/-- The operands of a font write, format FONT (30_encoding.md R78). Every value of `x` and `y` can be encoded; those out of
range drop the pack (R85). -/
structure FontOperands where
  ch   : BitVec 4
  fg   : PaletteIndex
  bg   : PaletteIndex
  x    : BitVec 6
  y    : BitVec 5
  rows : Vector Symbol 12
  deriving DecidableEq, Repr

/-- The horizontal direction code of a scroll (30_encoding.md R84), in the names of R88. -/
inductive HDir where
  | none
  | right
  | left
  | h3
  deriving DecidableEq, Repr

/-- The vertical direction code of a scroll (30_encoding.md R84), in the names of R88. -/
inductive VDir where
  | none
  | down
  | up
  | v3
  deriving DecidableEq, Repr

/-- One pack, decoded. -/
inductive Instr where
  /-- MEMORY_PRESET, `inst = 0x01`: 41_palette_clut.md R120. -/
  | memoryPreset (c : PaletteIndex)
  /-- BORDER_PRESET, `inst = 0x02`: 41_palette_clut.md R122. -/
  | borderPreset (c : PaletteIndex)
  /-- COPY_FONT, `inst = 0x06`: 42_font.md R145. -/
  | copyFont (f : FontOperands)
  /-- SCROLL_PRESET, `inst = 0x14`: 44_scroll.md R185. -/
  | scrollPreset (fill : PaletteIndex) (h : HDir) (v : VDir)
  /-- SCROLL_COPY, `inst = 0x18`: 44_scroll.md R186. The fill field is decoded and has no effect. -/
  | scrollCopy (fill : PaletteIndex) (h : HDir) (v : VDir)
  /-- LOAD_CLUT_LO, `inst = 0x1E`: 41_palette_clut.md R125. -/
  | loadClutLo (colours : Vector Rgb4 8)
  /-- LOAD_CLUT_HI, `inst = 0x1F`: 41_palette_clut.md R126. -/
  | loadClutHi (colours : Vector Rgb4 8)
  /-- XOR_FONT, `inst = 0x26`: 42_font.md R146. -/
  | xorFont (f : FontOperands)
  /-- SKIP_INST, a graphics pack with an unrecognised instruction value: 40_decoder_dispatch.md R108. -/
  | skipInst (inst : Symbol)
  /-- SKIP_CMD, a pack whose command is not TV graphics: 40_decoder_dispatch.md R107. -/
  | skipCmd (cmd : Symbol)
  deriving DecidableEq, Repr

/-- The mnemonic of the instruction's row in spec/opcode_table.json. -/
def Instr.mnemonic : Instr → String
  | .memoryPreset _ => "MEMORY_PRESET"
  | .borderPreset _ => "BORDER_PRESET"
  | .copyFont _ => "COPY_FONT"
  | .scrollPreset _ _ _ => "SCROLL_PRESET"
  | .scrollCopy _ _ _ => "SCROLL_COPY"
  | .loadClutLo _ => "LOAD_CLUT_LO"
  | .loadClutHi _ => "LOAD_CLUT_HI"
  | .xorFont _ => "XOR_FONT"
  | .skipInst _ => "SKIP_INST"
  | .skipCmd _ => "SKIP_CMD"

end Sys2Proof
end

