-- ==== Sys2Proof/WellFormed.lean ====
section
/-! DEFINITION. Which terms of `Instr` are instructions. The types already bound every operand; what is left to check is that
the two skip rows stand only for values no other row takes (30_encoding.md R75: the first matching row wins). -/

namespace Sys2Proof

/-- The eight recognised instruction values (30_encoding.md R74). -/
def recognisedInsts : List Symbol := [0x01, 0x02, 0x06, 0x14, 0x18, 0x1E, 0x1F, 0x26]

/-- A term that some pack decodes to. SKIP_INST carries an unrecognised instruction value (40_decoder_dispatch.md R108),
SKIP_CMD a command other than TV graphics (R107). -/
def Instr.wellFormed : Instr → Bool
  | .memoryPreset _ => true
  | .borderPreset _ => true
  | .copyFont _ => true
  | .scrollPreset _ _ _ => true
  | .scrollCopy _ _ _ => true
  | .loadClutLo _ => true
  | .loadClutHi _ => true
  | .xorFont _ => true
  | .skipInst inst => !recognisedInsts.contains inst
  | .skipCmd cmd => cmd != Config.cmdTvGraphics

end Sys2Proof
end

