-- ==== Sys2Proof/Decode.lean ====
section
/-! DEFINITION. The pack decoder (30_encoding.md R70 to R87), the opcode table as data (R75), and after them the encoder
(the canonical encoding of R88). Slices are written `extractLsb' low width`: the spec's `v[hi:lo]` is
`v.extractLsb' lo (hi - lo + 1)`. -/

namespace Sys2Proof

/-! ## Fields -/

/-- `cmd = P[0][5:0]` (R74). -/
def cmdOf (P : Pack) : Symbol := P[0].extractLsb' 0 6

/-- `inst = P[1][5:0]` (R74). -/
def instOf (P : Pack) : Symbol := P[1].extractLsb' 0 6

/-- The direction a 2-bit code means horizontally (R84). PRESUMED by the spec (passage G2, decisions D5, D6), log entry 6. -/
def HDir.ofCode (code : BitVec 2) : HDir :=
  if code = 1#2 then .right
  else if code = 2#2 then .left
  else if code = 3#2 then .h3
  else .none

/-- The direction a 2-bit code means vertically (R84). PRESUMED by the spec (passage G2, decisions D5, D6), log entry 6. -/
def VDir.ofCode (code : BitVec 2) : VDir :=
  if code = 1#2 then .down
  else if code = 2#2 then .up
  else if code = 3#2 then .v3
  else .none

/-- The colour index of formats PRESET and SCROLL: `P[4][3:0]` (R76, R79, R80; decisions D3, D8). -/
def indexField (P : Pack) : PaletteIndex := P[4].extractLsb' 0 4

/-- `hdir = P[5][5:4]` (R79, R84). -/
def hdirField (P : Pack) : HDir := HDir.ofCode (P[5].extractLsb' 4 2)

/-- `vdir = P[6][5:4]` (R79, R84). -/
def vdirField (P : Pack) : VDir := VDir.ofCode (P[6].extractLsb' 4 2)

/-- The operands of format FONT (R78, R82, R85). The channel's bit positions are PRESUMED by the spec (passage G1,
decision D4), log entry 6. -/
def fontFields (P : Pack) : FontOperands where
  ch := P[4].extractLsb' 4 2 ++ P[5].extractLsb' 4 2
  fg := P[4].extractLsb' 0 4
  bg := P[5].extractLsb' 0 4
  y := P[6].extractLsb' 0 5
  x := P[7].extractLsb' 0 6
  rows := Vector.ofFn fun r : Fin 12 => (P[8 + r.val]'(by omega)).extractLsb' 0 6

/-- Entry `i` of format CLUT, from the byte pair `P[4+2i]`, `P[5+2i]` (R77, R81). -/
def clutField (b0 b1 : Byte) : Rgb4 where
  red := b0.extractLsb' 2 4
  green := b0.extractLsb' 0 2 ++ b1.extractLsb' 4 2
  blue := b1.extractLsb' 0 4

/-- The eight entries of format CLUT (R77). -/
def clutFields (P : Pack) : Vector Rgb4 8 :=
  Vector.ofFn fun i : Fin 8 => clutField (P[4 + 2 * i.val]'(by omega)) (P[5 + 2 * i.val]'(by omega))

/-! ## Decoding -/

/-- The instruction of a pack. Every one of the `2^192` packs has one (R75, R86); the instruction value is compared whole
(R74). -/
def decodePack (P : Pack) : Instr :=
  if cmdOf P ≠ Config.cmdTvGraphics then .skipCmd (cmdOf P)
  else if instOf P = 0x01#6 then .memoryPreset (indexField P)
  else if instOf P = 0x02#6 then .borderPreset (indexField P)
  else if instOf P = 0x06#6 then .copyFont (fontFields P)
  else if instOf P = 0x14#6 then .scrollPreset (indexField P) (hdirField P) (vdirField P)
  else if instOf P = 0x18#6 then .scrollCopy (indexField P) (hdirField P) (vdirField P)
  else if instOf P = 0x1E#6 then .loadClutLo (clutFields P)
  else if instOf P = 0x1F#6 then .loadClutHi (clutFields P)
  else if instOf P = 0x26#6 then .xorFont (fontFields P)
  else .skipInst (instOf P)

/-- Why bytes are no instruction. -/
inductive DecodeReject where
  /-- Fewer than 24 bytes are left: they are not a pack and are never fetched as one (20_memory.md R42, decision D18). -/
  | truncatedPack
  deriving DecidableEq, Repr

/-- The first instruction of a byte sequence and the bytes after it. Every instruction is 24 bytes (R70, R87), so nothing
but a shortage of bytes is rejected (R86). -/
def decode (bytes : List Byte) : Except DecodeReject (Instr × List Byte) :=
  if h : 24 ≤ bytes.length then
    .ok (decodePack (Vector.ofFn fun n : Fin 24 => bytes[n.val]'(by omega)), bytes.drop 24)
  else .error .truncatedPack

/-! ## The opcode table as data (R75) -/

/-- One row of the opcode table: a pack matches when `key &&& mask = pattern`. -/
structure OpcodeRow where
  mnemonic : String
  pattern  : BitVec 16
  mask     : BitVec 16
  deriving DecidableEq, Repr

/-- The ten rows of spec/opcode_table.json, in its order (R75). -/
def opcodeRows : List OpcodeRow :=
  [ ⟨"MEMORY_PRESET", 0x0901, 0x3F3F⟩
  , ⟨"BORDER_PRESET", 0x0902, 0x3F3F⟩
  , ⟨"COPY_FONT", 0x0906, 0x3F3F⟩
  , ⟨"SCROLL_PRESET", 0x0914, 0x3F3F⟩
  , ⟨"SCROLL_COPY", 0x0918, 0x3F3F⟩
  , ⟨"LOAD_CLUT_LO", 0x091E, 0x3F3F⟩
  , ⟨"LOAD_CLUT_HI", 0x091F, 0x3F3F⟩
  , ⟨"XOR_FONT", 0x0926, 0x3F3F⟩
  , ⟨"SKIP_INST", 0x0900, 0x3F00⟩
  , ⟨"SKIP_CMD", 0x0000, 0x0000⟩ ]

/-- The 16-bit key of a pack, `{P[0], P[1]}` (R75). -/
def packKey (P : Pack) : BitVec 16 := P[0] ++ P[1]

/-- The first row that matches a pack (R75). -/
def firstMatchingRow (P : Pack) : Option OpcodeRow :=
  opcodeRows.find? fun row => packKey P &&& row.mask == row.pattern

/-! ## Encoding (R88) -/

/-- The code of a horizontal direction (R84, R88). -/
def HDir.code : HDir → BitVec 2
  | .none => 0
  | .right => 1
  | .left => 2
  | .h3 => 3

/-- The code of a vertical direction (R84, R88). -/
def VDir.code : VDir → BitVec 2
  | .none => 0
  | .down => 1
  | .up => 2
  | .v3 => 3

/-- A pack byte that carries the six meaningful bits and has bits 7:6 clear (R72, R88). -/
def byteOf (v : Symbol) : Byte := 0#2 ++ v

/-- The pack with a command, an instruction value and the sixteen data symbols of bytes 4 to 19 (R71); the unused bytes are 0
(R73, R88). -/
def packOf (cmd inst : Symbol) (data : Vector Symbol 16) : Pack :=
  Vector.ofFn fun n : Fin 24 =>
    if n.val = 0 then byteOf cmd
    else if n.val = 1 then byteOf inst
    else if h : 4 ≤ n.val ∧ n.val < 20 then byteOf (data[n.val - 4]'(by omega))
    else 0#8

/-- Data symbols that are all 0. -/
def noData : Vector Symbol 16 := Vector.ofFn fun _ => 0#6

/-- Format PRESET (R76, R88). -/
def presetData (c : PaletteIndex) : Vector Symbol 16 :=
  Vector.ofFn fun k : Fin 16 => if k.val = 0 then 0#2 ++ c else 0#6

/-- Format FONT (R78, R88). -/
def fontData (f : FontOperands) : Vector Symbol 16 :=
  Vector.ofFn fun k : Fin 16 =>
    if k.val = 0 then f.ch.extractLsb' 2 2 ++ f.fg
    else if k.val = 1 then f.ch.extractLsb' 0 2 ++ f.bg
    else if k.val = 2 then 0#1 ++ f.y
    else if k.val = 3 then f.x
    else f.rows[k.val - 4]'(by omega)

/-- Format SCROLL (R79, R88). -/
def scrollData (fill : PaletteIndex) (h : HDir) (v : VDir) : Vector Symbol 16 :=
  Vector.ofFn fun k : Fin 16 =>
    if k.val = 0 then 0#2 ++ fill
    else if k.val = 1 then h.code ++ 0#4
    else if k.val = 2 then v.code ++ 0#4
    else 0#6

/-- Format CLUT (R77, R88): entry `i` in data symbols `2i` and `2i+1`. -/
def clutData (colours : Vector Rgb4 8) : Vector Symbol 16 :=
  Vector.ofFn fun k : Fin 16 =>
    let c := colours[k.val / 2]'(by omega)
    if k.val % 2 = 0 then c.red ++ c.green.extractLsb' 2 2 else c.green.extractLsb' 0 2 ++ c.blue

/-- The canonical encoding of an instruction (R88). -/
def encode : Instr → Pack
  | .memoryPreset c => packOf Config.cmdTvGraphics 0x01 (presetData c)
  | .borderPreset c => packOf Config.cmdTvGraphics 0x02 (presetData c)
  | .copyFont f => packOf Config.cmdTvGraphics 0x06 (fontData f)
  | .scrollPreset fill h v => packOf Config.cmdTvGraphics 0x14 (scrollData fill h v)
  | .scrollCopy fill h v => packOf Config.cmdTvGraphics 0x18 (scrollData fill h v)
  | .loadClutLo colours => packOf Config.cmdTvGraphics 0x1E (clutData colours)
  | .loadClutHi colours => packOf Config.cmdTvGraphics 0x1F (clutData colours)
  | .xorFont f => packOf Config.cmdTvGraphics 0x26 (fontData f)
  | .skipInst inst => packOf Config.cmdTvGraphics inst noData
  | .skipCmd cmd => packOf cmd 0 noData

/-! ## Words as spec/opcode_table.json numbers them -/

/-- The 24 bytes of an instruction whose bits are `w`, numbered as the table numbers them: 16-bit words, the first word the key
`{P[0], P[1]}` (R75), so the byte at the lower address is a word's high byte; every bit from `nbits` up is 0. DESIGN CHOICE,
log entry 10. -/
def tablePack (nbits w : Nat) : Pack :=
  Vector.ofFn fun n : Fin 24 =>
    BitVec.ofNat 8 ((w % 2 ^ nbits) >>> (16 * (n.val / 2) + (if n.val % 2 = 0 then 8 else 0)))

/-- The instruction the decoder reads from an instruction whose bits are `w`. -/
def decodeTableWord (nbits w : Nat) : Option Instr :=
  match decode (tablePack nbits w).toList with
  | .ok (i, _) => some i
  | .error _ => none

end Sys2Proof
end

