-- ==== Sys2Proof/Machine/State.lean ====
section
/-! DEFINITION. The state: the core's own (10_state.md section 1, "There is no other state"), the host's environment of a
command (00_scope.md R10), and the model's record of the host's pending actions and of the outputs. Plain data throughout. -/

namespace Sys2Proof.Machine

/-! ## Memories -/

/-- A memory: (address, value) pairs, addresses strictly rising, no entry equal to what an unlisted address reads as. What an
unlisted address reads as is said where the memory is used; `Memory.wf` is the canonical form. -/
abbrev Memory (α : Type) := List (Nat × α)

/-- The canonical form of a memory of `size` addresses whose unlisted addresses read as `unlisted` (`none`: no value). -/
def Memory.wf {α : Type} [DecidableEq α] (size : Nat) (unlisted : Option α) (m : Memory α) : Bool :=
  decide (m.Pairwise fun p q => p.1 < q.1) && m.all fun p => decide (p.1 < size) && some p.2 != unlisted

/-! ## The core's state -/

/-- One palette entry: three unsigned 8-bit channels (10_state.md R29). -/
structure Colour where
  r : Byte
  g : Byte
  b : Byte
  deriving DecidableEq, Repr

/-- Black, `(0, 0, 0)`: every palette entry's reset value (10_state.md R29). -/
def Colour.black : Colour := ⟨0, 0, 0⟩

/-- The core's state, one aggregate owned by one Decoder instance (10_state.md R20 to R30). -/
structure Decoder where
  /-- PaletteTable: exactly 16 entries (R29). -/
  pal : Vector Colour 16
  /-- VramStore: 10800 cells, linear index `Y * 50 + x`, an unlisted cell is 0x000000 (R30). -/
  vram : Memory Cell
  /-- The block flags, flat index `y * 50 + x`, an unlisted flag is false (R25, decision D14). -/
  dirty : Memory Bool
  /-- R23. -/
  screenDirty : Bool
  /-- R24. -/
  borderDirty : Bool
  /-- R26. -/
  borderIndex : PaletteIndex
  /-- The cursor: all packs strictly before this index have been applied (R22). -/
  currentPack : PackIndex
  deriving DecidableEq, Repr

/-! ## The host's environment -/

/-- The pack stream: `length` bytes, `L` of the spec, every one of them present (20_memory.md R42); a byte below `length` that
is not listed is 0. -/
structure PackStream where
  length : Nat
  cells  : Memory Byte
  deriving DecidableEq, Repr

/-- The environment of a command (00_scope.md R10; 10_state.md R32): the host's, not the core's. -/
structure Env where
  stream : PackStream
  /-- The output framebuffer: 221184 bytes (20_memory.md R44); an unlisted byte is one nothing in the model has written and has
  no known value (93_implementation_defined.md U3). -/
  fb : Memory Byte
  deriving DecidableEq, Repr

/-! ## Commands and outputs -/

/-- The three commands of the host (00_scope.md R10; 40_decoder_dispatch.md R100). -/
inductive Command where
  | reset
  | decodeTo (target : PackIndex)
  | renderFrame
  deriving DecidableEq, Repr

/-- The result of a DECODE_TO (40_decoder_dispatch.md R100). -/
inductive ResultCode where
  | ok
  | insufficientInput
  deriving DecidableEq, Repr

/-- The code of a result: ERR_OK = 0, ERR_INSUFFICIENT_INPUT = 1 (60_exceptions.md R200). -/
def ResultCode.code : ResultCode → Nat
  | .ok => Config.errOk
  | .insufficientInput => Config.errInsufficientInput

/-- The output of a command (00_scope.md R10). In `renderResult`, `updated` lists the set bits `[i][j]` of the 48 x 16 mask, font
rows outer and font columns inner (43_render.md R161, decision D13; log entry 9). -/
inductive Output where
  | resetDone
  | decodeResult (code : ResultCode)
  | renderResult (full : Bool) (updated : List (Nat × Nat))
  deriving DecidableEq, Repr

/-- What the host does, one action at a time: it issues a command (R100, R101), or it supplies the pack stream (20_memory.md R42,
R58) or the framebuffer (R44, 70_reset_and_hazards.md R223, R226) that later commands use. -/
inductive HostAction where
  | command (c : Command)
  /-- From now on the pack stream is these bytes. -/
  | supplyStream (bytes : List Byte)
  /-- From now on the framebuffer is one in which the host has written these (offset, byte) pairs, a later pair over an earlier
  one; its other bytes have no known value. -/
  | supplyFrameBuffer (written : List Host.Cell)
  deriving DecidableEq, Repr

/-! ## The machine's state -/

/-- The state of the machine: the core, the host's environment, and the model's own two lists (log entry 1). -/
structure State where
  core    : Decoder
  env     : Env
  /-- The host's actions still to come, the next one first. -/
  pending : List HostAction
  /-- The outputs of the commands executed so far, the oldest first. -/
  outputs : List Output
  deriving DecidableEq, Repr

/-- The reasons to stop with a fault: there is none. The one exception, INSUFFICIENT_INPUT, is an output of its command and the
machine goes on (60_exceptions.md R200, R201, R205). -/
inductive Fault where
  deriving DecidableEq, Repr

/-- The reasons to give an instruction no meaning. -/
inductive Refusal where
  /-- Raised by an arm of `exec` whose instruction has no meaning yet; safe. No arm raises it in this model. -/
  | notModelled (mnemonic : String)
  deriving DecidableEq, Repr

/-! ## Reset -/

/-- ResetState: the core's state after RESET and at power-on (10_state.md R34; 70_reset_and_hazards.md R220, R221). -/
def Decoder.reset : Decoder where
  pal := Vector.replicate 16 Colour.black
  vram := []
  dirty := []
  screenDirty := false
  borderDirty := false
  borderIndex := 0
  currentPack := 0

/-- The host's environment before the host has supplied anything: an empty stream, a framebuffer with no known byte. DESIGN
CHOICE, log entries 2 and 3. -/
def Env.initial : Env where
  stream := { length := 0, cells := [] }
  fb := []

/-- The machine right after reset: the core in ResetState, nothing supplied, nothing pending. -/
def State.reset : State where
  core := Decoder.reset
  env := Env.initial
  pending := []
  outputs := []

end Sys2Proof.Machine
end

