-- ==== Sys2Proof/Machine/Ops.lean ====
section
/-! DEFINITION. The named operations over memories, the pack stream, VRAM, the palette, the framebuffer and the state, and the
one exception. Every other file reads and writes state through these. -/

namespace Sys2Proof.Machine

/-! ## Memories -/

/-- The listed value at an address. -/
def Memory.lookup {α : Type} : Memory α → Nat → Option α
  | [], _ => none
  | (k, v) :: m, a => if k = a then some v else Memory.lookup m a

/-- List `v` at `a`, in address order, over whatever was listed there. -/
def Memory.insert {α : Type} (m : Memory α) (a : Nat) (v : α) : Memory α :=
  (m.filter fun p => p.1 < a) ++ (a, v) :: m.filter fun p => a < p.1

/-- List nothing at `a`. -/
def Memory.erase {α : Type} (m : Memory α) (a : Nat) : Memory α := m.filter fun p => p.1 != a

/-- Read a memory whose unlisted addresses read as `unlisted`. -/
def Memory.read {α : Type} (unlisted : α) (m : Memory α) (a : Nat) : α := (Memory.lookup m a).getD unlisted

/-- Write a memory whose unlisted addresses read as `unlisted`: writing that value removes the entry. -/
def Memory.write {α : Type} [DecidableEq α] (unlisted : α) (m : Memory α) (a : Nat) (v : α) : Memory α :=
  if v = unlisted then Memory.erase m a else Memory.insert m a v

/-- The memory that reads as `f a` at every address `a` below `size`. -/
def Memory.tabulate {α : Type} [DecidableEq α] (unlisted : α) (size : Nat) (f : Nat → α) : Memory α :=
  (List.range' 0 size).filterMap fun a => if f a = unlisted then none else some (a, f a)

/-- What an unlisted cell of VRAM reads as: its reset contents (10_state.md R30, R34). -/
abbrev vramUnlisted : Cell := 0x000000#24

/-- What an unlisted block flag reads as: its reset value (10_state.md R25, R34). -/
abbrev flagUnlisted : Bool := false

/-- What an unlisted byte of the pack stream, below its length, reads as. Every byte there is one the host has supplied, so this is a
choice of what to list and no value of the hardware's (20_memory.md R42). -/
abbrev streamUnlisted : Byte := 0x00#8

/-! ## The pack stream -/

/-- The byte of the stream at an address (20_memory.md R42). -/
def PackStream.byteAt (st : PackStream) (a : Nat) : Byte := Memory.read streamUnlisted st.cells a

/-- `MemRead(24 * k, 24)`, the fetch of pack `k` (20_memory.md R46). Only DECODE_TO fetches, after its length test, so `k` is
always a whole pack of the stream. -/
def PackStream.fetchPack (st : PackStream) (k : Nat) : Pack :=
  Vector.ofFn fun n : Fin 24 => st.byteAt (24 * k + n.val)

/-- The stream of these bytes. -/
def PackStream.ofBytes (bytes : List Byte) : PackStream where
  length := bytes.length
  cells := Memory.tabulate streamUnlisted bytes.length fun a => bytes.getD a 0#8

/-- The stream with pack `k` placed at its address and, where it was too short, lengthened to hold it. -/
def PackStream.placePack (st : PackStream) (k : Nat) (P : Pack) : PackStream where
  length := max st.length (24 * (k + 1))
  cells := (List.finRange 24).foldl (fun m n => Memory.write streamUnlisted m (24 * k + n.val) P[n]) st.cells

/-! ## VRAM and the block flags -/

/-- `cellidx(x, Y)`: the linear index of font column `x`, pixel row `Y` (00_scope.md R14; 10_state.md R30). -/
def cellIdx (x Y : Nat) : Nat := Y * 50 + x

/-- `vram[j]`. -/
def Decoder.cell (d : Decoder) (j : Nat) : Cell := Memory.read vramUnlisted d.vram j

/-- `dirty[x][y]`: the block flag of font column `x`, font row `y`, flat index `y * 50 + x` (10_state.md R25). -/
def Decoder.blockFlag (d : Decoder) (x y : Nat) : Bool := Memory.read flagUnlisted d.dirty (y * 50 + x)

/-! ## The palette -/

/-- `pal[i]`. -/
def Decoder.colour (d : Decoder) (i : PaletteIndex) : Colour := d.pal[i.toNat]'i.isLt

/-! ## Updates of the core, one per field -/

def Decoder.withPal (d : Decoder) (v : Vector Colour 16) : Decoder := { d with pal := v }
def Decoder.withVram (d : Decoder) (v : Memory Cell) : Decoder := { d with vram := v }
def Decoder.withDirty (d : Decoder) (v : Memory Bool) : Decoder := { d with dirty := v }
def Decoder.withScreenDirty (d : Decoder) (v : Bool) : Decoder := { d with screenDirty := v }
def Decoder.withBorderDirty (d : Decoder) (v : Bool) : Decoder := { d with borderDirty := v }
def Decoder.withBorderIndex (d : Decoder) (v : PaletteIndex) : Decoder := { d with borderIndex := v }
def Decoder.withCurrentPack (d : Decoder) (v : PackIndex) : Decoder := { d with currentPack := v }

/-- `pal[i] <- colour`. -/
def Decoder.setColour (d : Decoder) (i : PaletteIndex) (c : Colour) : Decoder := d.withPal (d.pal.set i.toNat c i.isLt)

/-- `vram[j] <- v`. -/
def Decoder.setCell (d : Decoder) (j : Nat) (v : Cell) : Decoder := d.withVram (Memory.write vramUnlisted d.vram j v)

/-! ## Updates of the machine, one per field -/

def State.withCore (s : State) (d : Decoder) : State := { s with core := d }
def State.withStream (s : State) (st : PackStream) : State := { s with env := { s.env with stream := st } }
def State.withFb (s : State) (fb : Memory Byte) : State := { s with env := { s.env with fb := fb } }
def State.withPending (s : State) (as : List HostAction) : State := { s with pending := as }

/-- The command in progress ends with this output (00_scope.md R10). -/
def State.emit (s : State) (o : Output) : State := { s with outputs := s.outputs ++ [o] }

/-! ## The framebuffer -/

/-- One byte of the framebuffer, `none` where nothing in the model has written it (93_implementation_defined.md U3). -/
def fbByte (fb : Memory Byte) (o : Nat) : Option Byte := Memory.lookup fb o

/-- The byte offset of output pixel `(Xo, Yo)` (20_memory.md R44). -/
def pixelOffset (Xo Yo : Nat) : Nat := (Yo * 288 + Xo) * 4

/-- `MemWrite(o, 4, (r, g, b, a))`: red at the lowest address, alpha at the highest, alpha always opaque (20_memory.md R48,
decision D12). -/
def writePixel (fb : Memory Byte) (o : Nat) (c : Colour) : Memory Byte :=
  Memory.insert (Memory.insert (Memory.insert (Memory.insert fb o c.r) (o + 1) c.g) (o + 2) c.b) (o + 3) Config.alphaOpaque

/-- The framebuffer the host supplies: the pairs it has written, a later one over an earlier one, none outside the buffer (its
size is fixed, 20_memory.md R44, decision D20). -/
def suppliedFrameBuffer (written : List Host.Cell) : Memory Byte :=
  written.foldl (fun fb p => if p.1 < 221184 then Memory.insert fb p.1 p.2 else fb) []

/-! ## The one exception -/

/-- `raise INSUFFICIENT_INPUT`: the command ends at once with DecodeResult(ERR_INSUFFICIENT_INPUT); the whole of the core's state
and of the environment is as it was (60_exceptions.md R200, R204; decision D10). Nothing is saved, no handler is entered, nothing
is latched, and there is no return from it: the core takes the next command as usual (R204, R205). -/
def raiseInsufficientInput (s : State) : State := s.emit (.decodeResult .insufficientInput)

end Sys2Proof.Machine
end

