-- ==== Sys2Proof/Machine/Operands.lean ====
section
/-! DEFINITION. Operand assembly and the packed-lane operations (30_encoding.md section 4; 42_font.md R147). -/

namespace Sys2Proof.Machine

/-- `rep6(c)`: the cell with `c` in all six lanes (00_scope.md R14); it equals `c * 0x111111` (`rep6_eq_mul`). -/
def rep6 (c : PaletteIndex) : Cell := c ++ c ++ c ++ c ++ c ++ c

/-- `lane(cell, p) = cell[4p+3:4p]` (00_scope.md R14). -/
def lane (cell : Cell) (p : Nat) : PaletteIndex := cell.extractLsb' (4 * p) 4

/-- The index pixel `p` of a row bitmap selects: bit `5 - p` set selects the foreground (30_encoding.md R83; decisions D2, D7). -/
def selectedIndex (row : Symbol) (fg bg : PaletteIndex) (p : Nat) : PaletteIndex :=
  if row.getLsbD (5 - p) then fg else bg

/-- The cell of a row bitmap: `idx_p` in bits `4p+3` to `4p` (30_encoding.md R83). -/
def cellVal (row : Symbol) (fg bg : PaletteIndex) : Cell :=
  selectedIndex row fg bg 5 ++ selectedIndex row fg bg 4 ++ selectedIndex row fg bg 3
    ++ selectedIndex row fg bg 2 ++ selectedIndex row fg bg 1 ++ selectedIndex row fg bg 0

/-- A 4-bit colour component expanded to 8 bits: `n * 17` (30_encoding.md R81; 41_palette_clut.md R128). -/
def expand17 (n : BitVec 4) : Byte := n.setWidth 8 * 17#8

/-- The colour of a CLUT entry (30_encoding.md R81). -/
def colourOf (c : Rgb4) : Colour := ⟨expand17 c.red, expand17 c.green, expand17 c.blue⟩

/-- Bit `ch` of ACTIVE_CHANNELS (10_state.md R27; 42_font.md R141). -/
def channelActive (ch : BitVec 4) : Bool := Config.activeChannels.getLsbD ch.toNat

/-- Whether a block coordinate is valid: `x` 0 to 49, `y` 0 to 17 (30_encoding.md R85; 42_font.md R142). -/
def inRange (x : BitVec 6) (y : BitVec 5) : Bool := decide (x.toNat ≤ 49 ∧ y.toNat ≤ 17)

/-- `pix(X, Y)`: the palette index of VRAM pixel `(X, Y)` (10_state.md R31). -/
def pix (d : Decoder) (X Y : Nat) : PaletteIndex := lane (d.cell (Y * 50 + X / 6)) (X % 6)

/-- The colour of output pixel `(Xo, Yo)`, `out_pixel` without its constant alpha (43_render.md R156). -/
def outColour (d : Decoder) (Xo Yo : Nat) : Colour := d.colour (pix d (Xo + 6) (Yo + 12))

end Sys2Proof.Machine
end

