-- ==== Sys2Proof/Machine/Flags.lean ====
section
/-! DEFINITION. The dirty flags: every computation that sets or clears one (10_state.md R23 to R25). No pack clears a flag
(60_exceptions.md R210). -/

namespace Sys2Proof.Machine

/-- `screen_dirty <- true` (R23). -/
def markScreen (d : Decoder) : Decoder := d.withScreenDirty true

/-- `border_dirty <- true` when `changed`, otherwise it keeps its value (R24). -/
def markBorderIf (changed : Bool) (d : Decoder) : Decoder := d.withBorderDirty (d.borderDirty || changed)

/-- `dirty[x][y] <- true` (R25). -/
def markBlock (x y : Nat) (d : Decoder) : Decoder := d.withDirty (Memory.write flagUnlisted d.dirty (y * 50 + x) true)

/-- `dirty[x][y] <- false` (R25). -/
def clearBlock (x y : Nat) (d : Decoder) : Decoder := d.withDirty (Memory.write flagUnlisted d.dirty (y * 50 + x) false)

/-- All flags false, those of the offscreen ring included (43_render.md R157). -/
def clearAllFlags (d : Decoder) : Decoder := ((d.withScreenDirty false).withBorderDirty false).withDirty []

end Sys2Proof.Machine
end

