-- ==== Sys2Proof/Machine/Font.lean ====
section
/-! DEFINITION. The font-block write instructions: COPY_FONT, XOR_FONT (42_font.md). -/

namespace Sys2Proof.Machine

/-- The linear index of the cell that pixel row `r` of block `(x, y)` goes to (R143). -/
def blockCell (x y r : Nat) : Nat := (12 * y + r) * 50 + x

/-- The write of one row of a block: overwrite or bitwise XOR of the whole cell (R143). -/
def fontRow (xor : Bool) (f : FontOperands) (d : Decoder) (r : Fin 12) : Decoder :=
  let j := blockCell f.x.toNat f.y.toNat r.val
  let v := cellVal f.rows[r] f.fg f.bg
  d.setCell j (if xor then d.cell j ^^^ v else v)

/-- The twelve row writes of a font pack that is not dropped, and its dirty marking (R143, R144). -/
def fontBlock (xor : Bool) (f : FontOperands) (d : Decoder) : Decoder :=
  markBlock f.x.toNat f.y.toNat ((List.finRange 12).foldl (fontRow xor f) d)

/-- `font_write(P, xor)` (R140): the channel gate (R141), the coordinate check (R142), then the block. -/
def fontWrite (xor : Bool) (f : FontOperands) (d : Decoder) : Decoder :=
  if channelActive f.ch = false then d
  else if inRange f.x f.y = false then d
  else fontBlock xor f d

/-- COPY_FONT (R145). -/
def execCopyFont (f : FontOperands) (s : State) : Host.Outcome State Fault Refusal :=
  .next (s.withCore (fontWrite false f s.core))

/-- XOR_FONT (R146). -/
def execXorFont (f : FontOperands) (s : State) : Host.Outcome State Fault Refusal :=
  .next (s.withCore (fontWrite true f s.core))

end Sys2Proof.Machine
end

