-- ==== Sys2Proof/Machine/Palette.lean ====
section
/-! DEFINITION. The preset and palette instructions: MEMORY_PRESET, BORDER_PRESET, LOAD_CLUT_LO, LOAD_CLUT_HI
(41_palette_clut.md). -/

namespace Sys2Proof.Machine

/-- MEMORY_PRESET on the core (R120). -/
def memoryPreset (c : PaletteIndex) (d : Decoder) : Decoder :=
  markScreen (d.withVram (Memory.tabulate vramUnlisted 10800 fun _ => rep6 c))

/-- BORDER_PRESET on the core (R122): the colours are compared, not the indices. -/
def borderPreset (c : PaletteIndex) (d : Decoder) : Decoder :=
  (markBorderIf (d.colour c != d.colour d.borderIndex) d).withBorderIndex c

/-- One entry of a CLUT load (R127): written, and flagged, only if it differs. -/
def loadEntry (j : PaletteIndex) (c : Colour) (d : Decoder) : Decoder :=
  if d.colour j = c then d else markBorderIf (j == d.borderIndex) (markScreen (d.setColour j c))

/-- The entries of a CLUT load from index `j` on, ascending (R127). -/
def loadEntries : List Rgb4 → PaletteIndex → Decoder → Decoder
  | [], _, d => d
  | c :: cs, j, d => loadEntries cs (j + 1) (loadEntry j (colourOf c) d)

/-- `load_clut(P, offset)` (R127). -/
def loadClut (colours : Vector Rgb4 8) (offset : PaletteIndex) (d : Decoder) : Decoder :=
  loadEntries colours.toList offset d

/-- MEMORY_PRESET (R120). -/
def execMemoryPreset (c : PaletteIndex) (s : State) : Host.Outcome State Fault Refusal :=
  .next (s.withCore (memoryPreset c s.core))

/-- BORDER_PRESET (R122). -/
def execBorderPreset (c : PaletteIndex) (s : State) : Host.Outcome State Fault Refusal :=
  .next (s.withCore (borderPreset c s.core))

/-- LOAD_CLUT_LO (R125). -/
def execLoadClutLo (colours : Vector Rgb4 8) (s : State) : Host.Outcome State Fault Refusal :=
  .next (s.withCore (loadClut colours 0 s.core))

/-- LOAD_CLUT_HI (R126). -/
def execLoadClutHi (colours : Vector Rgb4 8) (s : State) : Host.Outcome State Fault Refusal :=
  .next (s.withCore (loadClut colours 8 s.core))

end Sys2Proof.Machine
end

