-- ==== Sys2Proof/Machine/Scroll.lean ====
section
/-! DEFINITION. The scroll instructions: SCROLL_PRESET, SCROLL_COPY (44_scroll.md). Each shift reads the whole old array and gives
the whole new one (R182). -/

namespace Sys2Proof.Machine

/-- The array whose cell at font column `x`, pixel row `Y` is `f x Y`. -/
def vramOf (f : Nat → Nat → Cell) : Memory Cell :=
  Memory.tabulate vramUnlisted 10800 fun j => f (j % 50) (j / 50)

/-- The cell of an array at font column `x`, pixel row `Y`. -/
def cellAt (old : Memory Cell) (x Y : Nat) : Cell := Memory.read vramUnlisted old (cellIdx x Y)

/-- `hshift_right` (R183). -/
def hshiftRight (copy : Bool) (fill : Cell) (old : Memory Cell) : Memory Cell :=
  vramOf fun x Y => if x = 0 then (if copy then cellAt old 49 Y else fill) else cellAt old (x - 1) Y

/-- `hshift_left` (R183). -/
def hshiftLeft (copy : Bool) (fill : Cell) (old : Memory Cell) : Memory Cell :=
  vramOf fun x Y => if x = 49 then (if copy then cellAt old 0 Y else fill) else cellAt old (x + 1) Y

/-- `vshift_down` (R184). -/
def vshiftDown (copy : Bool) (fill : Cell) (old : Memory Cell) : Memory Cell :=
  vramOf fun x Y => if Y < 12 then (if copy then cellAt old x (Y + 204) else fill) else cellAt old x (Y - 12)

/-- `vshift_up` (R184). -/
def vshiftUp (copy : Bool) (fill : Cell) (old : Memory Cell) : Memory Cell :=
  vramOf fun x Y => if 204 ≤ Y then (if copy then cellAt old x (Y - 204) else fill) else cellAt old x (Y + 12)

/-- The shift along the horizontal axis; codes NONE and H3 shift nothing (R182; 30_encoding.md R84). -/
def hshift (h : HDir) (copy : Bool) (fill : Cell) (old : Memory Cell) : Memory Cell :=
  match h with
  | .none => old
  | .right => hshiftRight copy fill old
  | .left => hshiftLeft copy fill old
  | .h3 => old

/-- The shift along the vertical axis; codes NONE and V3 shift nothing (R182; 30_encoding.md R84). -/
def vshift (v : VDir) (copy : Bool) (fill : Cell) (old : Memory Cell) : Memory Cell :=
  match v with
  | .none => old
  | .down => vshiftDown copy fill old
  | .up => vshiftUp copy fill old
  | .v3 => old

/-- `scroll(P, copy)` (R182): horizontal before vertical, then the marking (R187). -/
def scroll (copy : Bool) (fill : PaletteIndex) (h : HDir) (v : VDir) (d : Decoder) : Decoder :=
  markScreen (d.withVram (vshift v copy (rep6 fill) (hshift h copy (rep6 fill) d.vram)))

/-- SCROLL_PRESET (R185). -/
def execScrollPreset (fill : PaletteIndex) (h : HDir) (v : VDir) (s : State) : Host.Outcome State Fault Refusal :=
  .next (s.withCore (scroll false fill h v s.core))

/-- SCROLL_COPY (R186). -/
def execScrollCopy (fill : PaletteIndex) (h : HDir) (v : VDir) (s : State) : Host.Outcome State Fault Refusal :=
  .next (s.withCore (scroll true fill h v s.core))

end Sys2Proof.Machine
end

