-- ==== Sys2Proof/Machine/Skip.lean ====
section
/-! DEFINITION. The two skip rows (40_decoder_dispatch.md R107, R108): no change of any kind. -/

namespace Sys2Proof.Machine

/-- SKIP_INST (R108). -/
def execSkipInst (_inst : Symbol) (s : State) : Host.Outcome State Fault Refusal := .next s

/-- SKIP_CMD (R107). -/
def execSkipCmd (_cmd : Symbol) (s : State) : Host.Outcome State Fault Refusal := .next s

end Sys2Proof.Machine
end

