-- ==== Sys2Proof/Machine/Dispatch.lean ====
section
/-! DEFINITION. One arm per instruction: the effect of `apply_pack` for each row of the opcode table (40_decoder_dispatch.md R106). -/

namespace Sys2Proof.Machine

def exec (i : Instr) (s : State) : Host.Outcome State Fault Refusal :=
  match i with
  | .memoryPreset c => Sys2Proof.Machine.execMemoryPreset c s
  | .borderPreset c => Sys2Proof.Machine.execBorderPreset c s
  | .copyFont f => Sys2Proof.Machine.execCopyFont f s
  | .scrollPreset fill h v => Sys2Proof.Machine.execScrollPreset fill h v s
  | .scrollCopy fill h v => Sys2Proof.Machine.execScrollCopy fill h v s
  | .loadClutLo colours => Sys2Proof.Machine.execLoadClutLo colours s
  | .loadClutHi colours => Sys2Proof.Machine.execLoadClutHi colours s
  | .xorFont f => Sys2Proof.Machine.execXorFont f s
  | .skipInst inst => Sys2Proof.Machine.execSkipInst inst s
  | .skipCmd cmd => Sys2Proof.Machine.execSkipCmd cmd s

end Sys2Proof.Machine
end

