-- ==== Sys2Proof/Machine/Render.lean ====
section
/-! DEFINITION. The renderer: RENDER_FRAME with its two paths (43_render.md). -/

namespace Sys2Proof.Machine

/-- The byte that a full-frame render leaves at offset `o`: channel `o mod 4` of the pixel that holds it (R157, R158;
20_memory.md R44, R48). -/
def outByte (d : Decoder) (o : Nat) : Byte :=
  let c := outColour d (o / 4 % 288) (o / 1152)
  if o % 4 = 0 then c.r else if o % 4 = 1 then c.g else if o % 4 = 2 then c.b else Config.alphaOpaque

/-- The buffer of the full-frame path: every byte of it is written, so nothing of the old contents remains (R157). -/
def renderFullFb (d : Decoder) : Memory Byte := (List.range' 0 221184).map fun o => (o, outByte d o)

/-- The visible blocks in the order of the partial path: font rows outer, font columns inner (R159). -/
def visibleBlocks : List (Nat × Nat) :=
  (List.range 16).flatMap fun j => (List.range 48).map fun i => (i + 1, j + 1)

/-- The visible blocks whose flag is set (R159). -/
def dirtyVisibleBlocks (d : Decoder) : List (Nat × Nat) := visibleBlocks.filter fun b => d.blockFlag b.1 b.2

/-- `put(Xo, Yo)` (R158). -/
def putPixel (d : Decoder) (Xo Yo : Nat) (fb : Memory Byte) : Memory Byte :=
  writePixel fb (pixelOffset Xo Yo) (outColour d Xo Yo)

/-- The 6 x 12 pixels of one visible block (R159). -/
def renderBlock (d : Decoder) (fb : Memory Byte) (b : Nat × Nat) : Memory Byte :=
  (List.range 12).foldl (fun fb r =>
    (List.range 6).foldl (fun fb p => putPixel d (6 * (b.1 - 1) + p) (12 * (b.2 - 1) + r) fb) fb) fb

/-- The full-frame path (R157). -/
def renderFull (s : State) : State :=
  ((s.withFb (renderFullFb s.core)).withCore (clearAllFlags s.core)).emit (.renderResult true [])

/-- The block-partial path (R159): each dirty visible block is written and its flag cleared; ring flags are neither read nor
cleared (R160). -/
def renderBlocks (s : State) : State :=
  let blocks := dirtyVisibleBlocks s.core
  ((s.withFb (blocks.foldl (renderBlock s.core) s.env.fb)).withCore
    (blocks.foldl (fun d b => clearBlock b.1 b.2 d) s.core)).emit
      (.renderResult false (blocks.map fun b => (b.1 - 1, b.2 - 1)))

/-- RENDER_FRAME (R155): the choice is made once, from the two flags as they are when the command starts. -/
def renderFrame (s : State) : State :=
  if s.core.borderDirty || s.core.screenDirty then renderFull s else renderBlocks s

end Sys2Proof.Machine
end

