-- ==== Sys2Proof/Machine/Commands.lean ====
section
/-! DEFINITION. The host's commands RESET, DECODE_TO, RENDER_FRAME and its two ways of supplying the environment
(40_decoder_dispatch.md R100 to R106; 70_reset_and_hazards.md R220). -/

namespace Sys2Proof.Machine

/-- `apply_pack` of pack `k` of the stream: fetch, decode, execute (20_memory.md R46; 40_decoder_dispatch.md R106). -/
def applyPackAt (k : Nat) (s : State) : Host.Outcome State Fault Refusal :=
  exec (decodePack (s.env.stream.fetchPack k)) s

/-- The left fold of `apply_pack` over packs `k` to `k + n - 1`, in increasing index order (00_scope.md R11). -/
def applyPacks : (n k : Nat) → State → Host.Outcome State Fault Refusal
  | 0, _, s => .next s
  | n + 1, k, s =>
    match applyPackAt k s with
    | .next t => applyPacks n (k + 1) t
    | .fault r => .fault r
    | .refused r => .refused r

/-- Every element of the core's state to its reset value; stream and framebuffer are not touched (70_reset_and_hazards.md R220,
R224). -/
def resetCore (s : State) : State := s.withCore Decoder.reset

/-- RESET (R220). -/
def runReset (s : State) : State := (resetCore s).emit .resetDone

/-- The end of a successful batch: `current_pack <- target_index`, output DecodeResult(ERR_OK) (R102). -/
def finishBatch (target : PackIndex) (s : State) : State :=
  (s.withCore (s.core.withCurrentPack target)).emit (.decodeResult .ok)

/-- The batch of a DECODE_TO that starts at the cursor: the packs of `[current_pack, target)`, then the cursor (R102). -/
def runBatch (target : PackIndex) (s : State) : Host.Outcome State Fault Refusal :=
  match applyPacks (target.toNat - s.core.currentPack.toNat) s.core.currentPack.toNat s with
  | .next t => .next (finishBatch target t)
  | .fault r => .fault r
  | .refused r => .refused r

/-- DECODE_TO (R102): the length test first, on the exact product (R103); a backward seek resets and replays (R104). -/
def runDecodeTo (target : PackIndex) (s : State) : Host.Outcome State Fault Refusal :=
  if 24 * target.toNat > s.env.stream.length then .next (raiseInsufficientInput s)
  else if target.toNat < s.core.currentPack.toNat then runBatch target (resetCore s)
  else runBatch target s

/-- One command, to completion (00_scope.md R9, R10). -/
def runCommand (c : Command) (s : State) : Host.Outcome State Fault Refusal :=
  match c with
  | .reset => .next (runReset s)
  | .decodeTo target => runDecodeTo target s
  | .renderFrame => .next (renderFrame s)

/-- One action of the host. -/
def runAction (a : HostAction) (s : State) : Host.Outcome State Fault Refusal :=
  match a with
  | .command c => runCommand c s
  | .supplyStream bytes => .next (s.withStream (PackStream.ofBytes bytes))
  | .supplyFrameBuffer written => .next (s.withFb (suppliedFrameBuffer written))

/-- The state in which the host's next action is a DECODE_TO that applies exactly the pack `P`: `P` is placed at the cursor and the
command asks for the packs up to the one after it. A cursor with no index after it (all ones) is set one back first, since no
DECODE_TO could pass it (log entry 4). -/
def placeNextPack (P : Pack) (s : State) : State :=
  let cursor := if s.core.currentPack = BitVec.allOnes 32 then s.core.currentPack - 1 else s.core.currentPack
  ((s.withCore (s.core.withCurrentPack cursor)).withStream (s.env.stream.placePack cursor.toNat P)).withPending
    (.command (.decodeTo (cursor + 1)) :: s.pending)

end Sys2Proof.Machine
end

