-- ==== Sys2Proof/Machine/Step.lean ====
section
/-! DEFINITION. The step: one action of the host, executed to completion as one atomic transition (00_scope.md R9, R10). -/

namespace Sys2Proof.Machine

/-- One step. With nothing pending the core is idle and holds its state (60_exceptions.md R206, R215). -/
def step (s : State) : Host.Outcome State Fault Refusal :=
  match s.pending with
  | [] => .next s
  | a :: rest => runAction a (s.withPending rest)

/-- `s` with the instruction of bits `w` placed so that the next step fetches and runs exactly it (log entry 4). -/
def State.withFetchWord (s : State) (nbits w : Nat) : State := placeNextPack (tablePack nbits w) s

end Sys2Proof.Machine
end

