-- ==== Sys2Proof/Safety.lean ====
section
/-! DEFINITION. The terms claims are stated in: `apply_pack` on the core alone, the sources of a scroll, the canonical state, the
invariants of 10_state.md R35, and when the framebuffer shows the picture (43_render.md R167). -/

namespace Sys2Proof.Machine

/-- A run that goes on: `n` steps from `s`, none of them a fault or a refusal. -/
def SafeRun (n : Nat) (s : State) : Prop := ∃ t, Host.Core.run Sys2Proof.core n s = .next t

/-! ## The fold of a batch -/

/-- `apply_pack : State x Pack -> State` (00_scope.md R11; 40_decoder_dispatch.md R106): what executing the pack leaves of the core,
in an empty environment. -/
def applyPack (d : Decoder) (P : Pack) : Decoder :=
  match exec (decodePack P) { core := d, env := Env.initial, pending := [], outputs := [] } with
  | .next t => t.core
  | .fault _ => d
  | .refused _ => d

/-- Packs `k` to `k + n - 1` of a stream, in increasing index order. -/
def packsOf (st : PackStream) (k n : Nat) : List Pack := (List.range' k n).map st.fetchPack

/-- The core after the first `n` packs of a stream, from ResetState. -/
def replay (st : PackStream) (n : Nat) : Decoder := (packsOf st 0 n).foldl applyPack Decoder.reset

/-! ## Where a scroll takes a cell from -/

/-- How far to the right, modulo 50 columns, a cell's new value stood (44_scroll.md R183; 30_encoding.md R84). -/
def columnOffset : HDir → Nat
  | .none => 0
  | .right => 49
  | .left => 1
  | .h3 => 0

/-- How far below, modulo 216 pixel rows, a cell's new value stood (44_scroll.md R184; 30_encoding.md R84). -/
def rowOffset : VDir → Nat
  | .none => 0
  | .down => 204
  | .up => 12
  | .v3 => 0

/-- The font column a horizontal shift vacates (R183). -/
def columnVacated (h : HDir) (x : Nat) : Prop := h = .right ∧ x = 0 ∨ h = .left ∧ x = 49

/-- The pixel rows a vertical shift vacates (R184). -/
def rowVacated (v : VDir) (Y : Nat) : Prop := v = .down ∧ Y < 12 ∨ v = .up ∧ 204 ≤ Y

/-! ## Invariants -/

/-- Every memory is in canonical form, with addresses inside its space (20_memory.md R40, R41). -/
def State.Canonical (s : State) : Prop :=
  Memory.wf 10800 (some vramUnlisted) s.core.vram = true ∧ Memory.wf 900 (some flagUnlisted) s.core.dirty = true ∧
    Memory.wf s.env.stream.length (some streamUnlisted) s.env.stream.cells = true ∧ Memory.wf 221184 none s.env.fb = true

/-- Every channel of every palette entry is a multiple of 17 (10_state.md R35 part (a)). -/
def PaletteExpanded (d : Decoder) : Prop :=
  ∀ i : PaletteIndex, (d.colour i).r.toNat % 17 = 0 ∧ (d.colour i).g.toNat % 17 = 0 ∧ (d.colour i).b.toNat % 17 = 0

/-- Palette, VRAM and border index are what the packs before the cursor leave, from ResetState (10_state.md R35 part (e)). -/
def DecodedPrefix (s : State) : Prop :=
  let d := replay s.env.stream s.core.currentPack.toNat
  s.core.pal = d.pal ∧ s.core.vram = d.vram ∧ s.core.borderIndex = d.borderIndex

/-! ## The framebuffer -/

/-- The four bytes of output pixel `(Xo, Yo)` are R, G, B of a colour and opaque alpha (20_memory.md R44, R48). -/
def PixelShows (fb : Memory Byte) (Xo Yo : Nat) (c : Colour) : Prop :=
  fbByte fb (pixelOffset Xo Yo) = some c.r ∧ fbByte fb (pixelOffset Xo Yo + 1) = some c.g ∧
    fbByte fb (pixelOffset Xo Yo + 2) = some c.b ∧ fbByte fb (pixelOffset Xo Yo + 3) = some 0xFF#8

/-- Visible block `(bx, by)` has a set flag (43_render.md R159). -/
def VisibleDirty (d : Decoder) (bx by' : Nat) : Prop :=
  1 ≤ bx ∧ bx ≤ 48 ∧ 1 ≤ by' ∧ by' ≤ 16 ∧ d.blockFlag bx by' = true

/-- Byte offset `o` belongs to a pixel of block `(bx, by)` (43_render.md R159). -/
def InBlock (bx by' o : Nat) : Prop :=
  ∃ p < 6, ∃ r < 12, ∃ c < 4, o = pixelOffset (6 * (bx - 1) + p) (12 * (by' - 1) + r) + c

/-- Every output pixel that the framebuffer does not show in its right colour is covered by a set flag: `screen_dirty`, or the flag
of its block (43_render.md R167). -/
def Covered (s : State) : Prop :=
  s.core.screenDirty = true ∨
    ∀ Xo < 288, ∀ Yo < 192,
      s.core.blockFlag (Xo / 6 + 1) (Yo / 12 + 1) = true ∨ PixelShows s.env.fb Xo Yo (outColour s.core Xo Yo)

/-- The action does not leave the framebuffer behind the core: it is no RESET, no backward seek and no new framebuffer
(70_reset_and_hazards.md R226, R228). -/
def KeepsPicture (s : State) : HostAction → Prop
  | .command .reset => False
  | .command (.decodeTo target) => s.core.currentPack.toNat ≤ target.toNat
  | .command .renderFrame => True
  | .supplyStream _ => True
  | .supplyFrameBuffer _ => False

end Sys2Proof.Machine
end

