-- ==== Sys2Proof/Certificates/Slice0/Obligations.lean ====
section
/-! DEFINITION. The statements for the provers. Each docstring names the rule of spec/ it formalises; where a clause rests on one of the
spec's own decisions or on a choice of this model, it says so and names the decision or the log entry. -/

open Sys2Proof Sys2Proof.Machine

/-! ## Encoding -/

/-- Decoding the canonical encoding of a well-formed instruction gives it back, from a pack and from a byte sequence that begins
with it. The canonical encoding is the spec's decision D17 (30_encoding.md section 7). -/
def Obligations.DecodeOfEncodeIsIdentity : Prop :=
  ∀ i : Instr, i.wellFormed = true →
    decodePack (encode i) = i ∧ ∀ rest : List Byte, decode ((encode i).toList ++ rest) = .ok (i, rest)

/-- Every pack decodes to a well-formed instruction, and a byte sequence is rejected exactly when it is shorter than one pack
(30_encoding.md sections 1 and 5; 20_memory.md section 2, decision D18). -/
def Obligations.EveryPackDecodesWellFormed : Prop :=
  (∀ P : Pack, (decodePack P).wellFormed = true) ∧
    ∀ bytes : List Byte, decode bytes = .error .truncatedPack ↔ bytes.length < 24

/-- A pack is acted upon only if its command is 0x09, and then its instruction value is compared whole with the eight recognised
values; any other pack changes nothing: 30_encoding.md R74. -/
def Obligations.InstructionValueComparedWhole : Prop :=
  ∀ P : Pack,
    let cmd := P[0].toNat % 64
    let inst := P[1].toNat % 64
    ((decodePack P).mnemonic = "MEMORY_PRESET" ↔ cmd = 9 ∧ inst = 1) ∧
    ((decodePack P).mnemonic = "BORDER_PRESET" ↔ cmd = 9 ∧ inst = 2) ∧
    ((decodePack P).mnemonic = "COPY_FONT" ↔ cmd = 9 ∧ inst = 6) ∧
    ((decodePack P).mnemonic = "SCROLL_PRESET" ↔ cmd = 9 ∧ inst = 20) ∧
    ((decodePack P).mnemonic = "SCROLL_COPY" ↔ cmd = 9 ∧ inst = 24) ∧
    ((decodePack P).mnemonic = "LOAD_CLUT_LO" ↔ cmd = 9 ∧ inst = 30) ∧
    ((decodePack P).mnemonic = "LOAD_CLUT_HI" ↔ cmd = 9 ∧ inst = 31) ∧
    ((decodePack P).mnemonic = "XOR_FONT" ↔ cmd = 9 ∧ inst = 38) ∧
    ((decodePack P).mnemonic = "SKIP_INST" ↔ cmd = 9 ∧ inst ∉ [1, 2, 6, 20, 24, 30, 31, 38]) ∧
    ((decodePack P).mnemonic = "SKIP_CMD" ↔ cmd ≠ 9) ∧
    (¬ (cmd = 9 ∧ inst ∈ [1, 2, 6, 20, 24, 30, 31, 38]) → ∀ s : State, exec (decodePack P) s = .next s)

/-- The first row of the opcode table that matches a pack's key is the row of the decoded instruction (30_encoding.md section 2, the
spec's own inference from R74). -/
def Obligations.FirstMatchingRowIsDecoded : Prop :=
  ∀ P : Pack, (firstMatchingRow P).map OpcodeRow.mnemonic = some (decodePack P).mnemonic

/-- Bytes 2, 3, 20 to 23 are read by no rule: 30_encoding.md R73. -/
def Obligations.UnusedBytesAreNotRead : Prop :=
  ∀ P Q : Pack,
    (∀ (n : Nat) (h : n < 24), n ≠ 2 → n ≠ 3 → n ≠ 20 → n ≠ 21 → n ≠ 22 → n ≠ 23 → P[n] = Q[n]) →
      decodePack P = decodePack Q

/-- Packs that agree in bits 5:0 of every byte decode alike (30_encoding.md section 1, the spec's own inference). -/
def Obligations.HighBitsAreIgnored : Prop :=
  ∀ P Q : Pack, (∀ (n : Nat) (h : n < 24), P[n].toNat % 64 = Q[n].toNat % 64) → decodePack P = decodePack Q

/-- The colour index of a preset pack is bits 3:0 of byte 4 (30_encoding.md sections 3 and 4; the masking to four bits is decision
D3). -/
def Obligations.PresetFieldFromBytes : Prop :=
  ∀ P : Pack, P[0].toNat % 64 = 9 →
    ∃ c : PaletteIndex, c.toNat = P[4].toNat % 16 ∧
      (P[1].toNat % 64 = 1 → decodePack P = .memoryPreset c) ∧ (P[1].toNat % 64 = 2 → decodePack P = .borderPreset c)

/-- The eight colour entries of a CLUT pack from its byte pairs, and their expansion by 17: 30_encoding.md R81. -/
def Obligations.ClutFieldsFromBytes : Prop :=
  ∀ P : Pack, P[0].toNat % 64 = 9 →
    ∃ cs : Vector Rgb4 8,
      (P[1].toNat % 64 = 30 → decodePack P = .loadClutLo cs) ∧ (P[1].toNat % 64 = 31 → decodePack P = .loadClutHi cs) ∧
      ∀ (i : Nat) (h : i < 8),
        let b0 := P[4 + 2 * i].toNat
        let b1 := P[5 + 2 * i].toNat
        let c := colourOf cs[i]
        cs[i].red.toNat = b0 / 4 % 16 ∧ cs[i].green.toNat = b0 % 4 * 4 + b1 / 16 % 4 ∧ cs[i].blue.toNat = b1 % 16 ∧
        c.r.toNat = cs[i].red.toNat * 17 ∧ c.g.toNat = cs[i].green.toNat * 17 ∧ c.b.toNat = cs[i].blue.toNat * 17

/-- The operands of a font pack from its bytes (30_encoding.md sections 3 and 4; the channel's bits are decision D4, log entry 6). -/
def Obligations.FontFieldsFromBytes : Prop :=
  ∀ P : Pack, P[0].toNat % 64 = 9 →
    ∃ f : FontOperands,
      (P[1].toNat % 64 = 6 → decodePack P = .copyFont f) ∧ (P[1].toNat % 64 = 38 → decodePack P = .xorFont f) ∧
      f.ch.toNat = P[4].toNat / 16 % 4 * 4 + P[5].toNat / 16 % 4 ∧ f.fg.toNat = P[4].toNat % 16 ∧
      f.bg.toNat = P[5].toNat % 16 ∧ f.y.toNat = P[6].toNat % 32 ∧ f.x.toNat = P[7].toNat % 64 ∧
      ∀ (r : Nat) (h : r < 12), f.rows[r].toNat = P[8 + r].toNat % 64

/-- The operands of a scroll pack from its bytes (30_encoding.md sections 3 and 4; the direction codes are decisions D5 and D6, the
fill's width D8; log entry 6). -/
def Obligations.ScrollFieldsFromBytes : Prop :=
  ∀ P : Pack, P[0].toNat % 64 = 9 →
    ∃ (fill : PaletteIndex) (h : HDir) (v : VDir),
      (P[1].toNat % 64 = 20 → decodePack P = .scrollPreset fill h v) ∧
      (P[1].toNat % 64 = 24 → decodePack P = .scrollCopy fill h v) ∧
      fill.toNat = P[4].toNat % 16 ∧
      (P[5].toNat / 16 % 4 = 0 → h = .none) ∧ (P[5].toNat / 16 % 4 = 1 → h = .right) ∧
      (P[5].toNat / 16 % 4 = 2 → h = .left) ∧ (P[5].toNat / 16 % 4 = 3 → h = .h3) ∧
      (P[6].toNat / 16 % 4 = 0 → v = .none) ∧ (P[6].toNat / 16 % 4 = 1 → v = .down) ∧
      (P[6].toNat / 16 % 4 = 2 → v = .up) ∧ (P[6].toNat / 16 % 4 = 3 → v = .v3)

/-- Packs written out in the spec decode to the instruction the spec says they are, one per family (95_test_vectors.md W2, W3, V-F2,
P2 pack 7, V-D5, V-D7). -/
def Obligations.SpecPacksDecode : Prop :=
  decodePack #v[0x09, 0x01, 0, 0, 0x03, 0, 0, 0, 0, 0, 0, 0, 0, 0, 0, 0, 0, 0, 0, 0, 0, 0, 0, 0] = .memoryPreset 3 ∧
  decodePack #v[0x09, 0x1E, 0, 0, 0x3C, 0x0F, 0, 0, 0, 0, 0, 0, 0, 0, 0, 0, 0, 0, 0, 0, 0, 0, 0, 0] =
    .loadClutLo #v[⟨15, 0, 15⟩, ⟨0, 0, 0⟩, ⟨0, 0, 0⟩, ⟨0, 0, 0⟩, ⟨0, 0, 0⟩, ⟨0, 0, 0⟩, ⟨0, 0, 0⟩, ⟨0, 0, 0⟩] ∧
  decodePack #v[0x09, 0x06, 0, 0, 0x0A, 0x05, 0x01, 0x01, 0x20, 0x01, 0x3F, 0, 0, 0, 0, 0, 0, 0, 0, 0, 0, 0, 0, 0] =
    .copyFont { ch := 0, fg := 10, bg := 5, x := 1, y := 1, rows := #v[0x20, 0x01, 0x3F, 0, 0, 0, 0, 0, 0, 0, 0, 0] } ∧
  decodePack #v[0x09, 0x14, 0, 0, 0x09, 0x10, 0x10, 0, 0, 0, 0, 0, 0, 0, 0, 0, 0, 0, 0, 0, 0, 0, 0, 0] =
    .scrollPreset 9 .right .down ∧
  decodePack #v[0x08, 0x01, 0, 0, 0x0F, 0, 0, 0, 0, 0, 0, 0, 0, 0, 0, 0, 0, 0, 0, 0, 0, 0, 0, 0] = .skipCmd 8 ∧
  decodePack #v[0x09, 0x1C, 0, 0, 0x0F, 0, 0, 0, 0, 0, 0, 0, 0, 0, 0, 0, 0, 0, 0, 0, 0, 0, 0, 0] = .skipInst 0x1C

/-! ## The packed lanes -/

/-- A row bitmap becomes a cell lane by lane: bit `5 - p` set selects the foreground for pixel `p` (30_encoding.md section 4;
decisions D2 and D7). XOR and replication work lane by lane (42_font.md section 3). -/
def Obligations.CellIsBuiltLaneByLane : Prop :=
  ∀ p < 6,
    (∀ (row : Symbol) (fg bg : PaletteIndex),
      lane (cellVal row fg bg) p = if row.toNat / 2 ^ (5 - p) % 2 = 1 then fg else bg) ∧
    (∀ c : PaletteIndex, lane (rep6 c) p = c) ∧
    (∀ a v : Cell, lane (a ^^^ v) p = lane a p ^^^ lane v p)

/-! ## The instructions -/

/-- MEMORY_PRESET completes; every lane of every cell becomes the index, `screen_dirty` is set, nothing else changes
(41_palette_clut.md section 1). -/
def Obligations.MemoryPresetFillsVram : Prop :=
  ∀ (c : PaletteIndex) (s : State), ∃ v,
    exec (.memoryPreset c) s = .next { s with core := { s.core with vram := v, screenDirty := true } } ∧
    ∀ j < 10800, ∀ p < 6, lane (Memory.read vramUnlisted v j) p = c

/-- BORDER_PRESET completes: `border_dirty` is set when the colours at the new and the old index differ and otherwise keeps its value,
the index is always stored, nothing else changes (41_palette_clut.md section 2). -/
def Obligations.BorderPresetComparesColours : Prop :=
  ∀ (c : PaletteIndex) (s : State),
    exec (.borderPreset c) s = .next { s with core := { s.core with
      borderDirty := if s.core.colour c ≠ s.core.colour s.core.borderIndex then true else s.core.borderDirty
      borderIndex := c } }

/-- LOAD_CLUT_LO (entries 0 to 7) and LOAD_CLUT_HI (entries 8 to 15) complete: the eight entries become the expanded colours, the
other eight keep theirs; `screen_dirty` is set when an entry changes, `border_dirty` when the border's entry changes; otherwise both
keep their value; nothing else changes (41_palette_clut.md section 3). -/
def Obligations.LoadClutWritesEntriesAndFlags : Prop :=
  ∀ (i : Instr) (cs : Vector Rgb4 8) (offset : Nat),
    (i = .loadClutLo cs ∧ offset = 0 ∨ i = .loadClutHi cs ∧ offset = 8) →
    ∀ s : State, ∃ pal sd bd,
      exec i s = .next { s with core := { s.core with pal := pal, screenDirty := sd, borderDirty := bd } } ∧
      (∀ (k : Nat) (h : k < 8) (hk : offset + k < 16), pal[offset + k] = colourOf cs[k]) ∧
      (∀ (j : Nat) (h : j < 16), (j < offset ∨ offset + 8 ≤ j) → pal[j] = s.core.pal[j]) ∧
      (sd = true ↔ s.core.screenDirty = true ∨ ∃ (j : Nat) (h : j < 16), pal[j] ≠ s.core.pal[j]) ∧
      (bd = true ↔ s.core.borderDirty = true ∨
        pal[s.core.borderIndex.toNat]'(s.core.borderIndex.isLt) ≠ s.core.pal[s.core.borderIndex.toNat]'(s.core.borderIndex.isLt))

/-- COPY_FONT on an active channel with coordinates in range completes: the twelve cells of the block, row `r` from bitmap `r`, are
overwritten; every other cell keeps its value; the block's flag is set and no other; nothing else changes (42_font.md sections 1
and 2; that the active channels are 0 and 1 is decision D4). -/
def Obligations.CopyFontWritesBlock : Prop :=
  ∀ (f : FontOperands) (s : State), f.ch.toNat ≤ 1 → f.x.toNat ≤ 49 → f.y.toNat ≤ 17 → ∃ v dirty,
    exec (.copyFont f) s = .next { s with core := { s.core with vram := v, dirty := dirty } } ∧
    (∀ (r : Nat) (h : r < 12), Memory.read vramUnlisted v (blockCell f.x.toNat f.y.toNat r) = cellVal f.rows[r] f.fg f.bg) ∧
    (∀ j, (∀ r < 12, j ≠ blockCell f.x.toNat f.y.toNat r) → Memory.read vramUnlisted v j = s.core.cell j) ∧
    (∀ k, Memory.read flagUnlisted dirty k = (k == f.y.toNat * 50 + f.x.toNat || Memory.read flagUnlisted s.core.dirty k))

/-- XOR_FONT on an active channel with coordinates in range completes: each cell of the block is XORed with its bitmap's cell; every
other cell keeps its value; the block's flag is set and no other; nothing else changes (42_font.md sections 1 and 2;
that the active channels are 0 and 1 is decision D4). -/
def Obligations.XorFontXorsBlock : Prop :=
  ∀ (f : FontOperands) (s : State), f.ch.toNat ≤ 1 → f.x.toNat ≤ 49 → f.y.toNat ≤ 17 → ∃ v dirty,
    exec (.xorFont f) s = .next { s with core := { s.core with vram := v, dirty := dirty } } ∧
    (∀ (r : Nat) (h : r < 12), Memory.read vramUnlisted v (blockCell f.x.toNat f.y.toNat r) =
      s.core.cell (blockCell f.x.toNat f.y.toNat r) ^^^ cellVal f.rows[r] f.fg f.bg) ∧
    (∀ j, (∀ r < 12, j ≠ blockCell f.x.toNat f.y.toNat r) → Memory.read vramUnlisted v j = s.core.cell j) ∧
    (∀ k, Memory.read flagUnlisted dirty k = (k == f.y.toNat * 50 + f.x.toNat || Memory.read flagUnlisted s.core.dirty k))

/-- A font write with a coordinate out of range or on an inactive channel completes and changes nothing (42_font.md section 1; that
channels 2 to 15 are inactive is decision D4). -/
def Obligations.BadFontPackIsDropped : Prop :=
  ∀ (f : FontOperands) (s : State), 2 ≤ f.ch.toNat ∨ 50 ≤ f.x.toNat ∨ 18 ≤ f.y.toNat →
    exec (.copyFont f) s = .next s ∧ exec (.xorFont f) s = .next s

/-- The twelve cells of a block lie inside VRAM, are distinct, and belong to no other block (42_font.md section 1;
00_scope.md section 6: block `(x, y)` holds cells `(x, 12y + r)`). -/
def Obligations.BlocksPartitionVram : Prop :=
  (∀ x ≤ 49, ∀ y ≤ 17, ∀ r < 12, blockCell x y r < 10800 ∧ blockCell x y r = cellIdx x (12 * y + r)) ∧
  ∀ j < 10800, ∃ x y r, (x ≤ 49 ∧ y ≤ 17 ∧ r < 12 ∧ blockCell x y r = j) ∧
    ∀ x' y' r', x' ≤ 49 ∧ y' ≤ 17 ∧ r' < 12 ∧ blockCell x' y' r' = j → x' = x ∧ y' = y ∧ r' = r

/-- SCROLL_COPY completes: every cell takes the value of the cell one font column and one font row away, modulo the array; codes
NONE, H3 and V3 do not move their axis; `screen_dirty` is set, nothing else changes (44_scroll.md sections 2 and 3; that codes
H3 and V3 do not move is decision D6, that the flag is set by every scroll D22). -/
def Obligations.ScrollCopyRotates : Prop :=
  ∀ (fill : PaletteIndex) (h : HDir) (v : VDir) (s : State), ∃ vram,
    exec (.scrollCopy fill h v) s = .next { s with core := { s.core with vram := vram, screenDirty := true } } ∧
    ∀ x < 50, ∀ Y < 216, Memory.read vramUnlisted vram (Y * 50 + x) =
      s.core.cell ((Y + rowOffset v) % 216 * 50 + (x + columnOffset h) % 50)

/-- SCROLL_PRESET completes: a cell of a vacated column or row becomes the fill in all six lanes, every other cell is taken as by
SCROLL_COPY; `screen_dirty` is set, nothing else changes (44_scroll.md sections 2 and 3; that codes H3 and V3 do not move is
decision D6, that the flag is set by every scroll D22). -/
def Obligations.ScrollPresetShiftsAndFills : Prop :=
  ∀ (fill : PaletteIndex) (h : HDir) (v : VDir) (s : State), ∃ vram,
    exec (.scrollPreset fill h v) s = .next { s with core := { s.core with vram := vram, screenDirty := true } } ∧
    ∀ x < 50, ∀ Y < 216,
      (columnVacated h x ∨ rowVacated v Y → ∀ p < 6, lane (Memory.read vramUnlisted vram (Y * 50 + x)) p = fill) ∧
      (¬ (columnVacated h x ∨ rowVacated v Y) → Memory.read vramUnlisted vram (Y * 50 + x) =
        s.core.cell ((Y + rowOffset v) % 216 * 50 + (x + columnOffset h) % 50))

/-- A pack whose command is not TV graphics, and a graphics pack with an unrecognised instruction value, complete and change nothing:
40_decoder_dispatch.md R107, R108. -/
def Obligations.SkippedPacksChangeNothing : Prop :=
  (∀ (cmd : Symbol) (s : State), exec (.skipCmd cmd) s = .next s) ∧
  (∀ (inst : Symbol) (s : State), exec (.skipInst inst) s = .next s) ∧
  ∀ (P : Pack) (s : State),
    (P[0].toNat % 64 ≠ 9 ∨ P[1].toNat % 64 ∉ [1, 2, 6, 20, 24, 30, 31, 38]) → exec (decodePack P) s = .next s

/-! ## Laws of the families -/

/-- XOR_FONT twice with the same data restores every cell, and the block's flag stays set when the pack is not dropped
(42_font.md section 3, the spec's own inference). -/
def Obligations.XorFontTwiceRestores : Prop :=
  ∀ (f : FontOperands) (s : State), ∃ t u,
    exec (.xorFont f) s = .next t ∧ exec (.xorFont f) t = .next u ∧ (∀ j, u.core.cell j = s.core.cell j) ∧
    (f.ch.toNat ≤ 1 → f.x.toNat ≤ 49 → f.y.toNat ≤ 17 → u.core.blockFlag f.x.toNat f.y.toNat = true)

/-- The same CLUT load, MEMORY_PRESET or BORDER_PRESET a second time in succession changes nothing at all (41_palette_clut.md
section 4, the spec's own inference). -/
def Obligations.RepeatedPaletteAndPresetPacksAreIdempotent : Prop :=
  ∀ (i : Instr),
    ((∃ cs, i = .loadClutLo cs) ∨ (∃ cs, i = .loadClutHi cs) ∨ (∃ c, i = .memoryPreset c) ∨ ∃ c, i = .borderPreset c) →
    ∀ s : State, ∃ t, exec i s = .next t ∧ exec i t = .next t

/-- Shifting both axes at once is shifting one and then the other, in either order (44_scroll.md section 4, the spec's own
inference). -/
def Obligations.ScrollAxesCommute : Prop :=
  ∀ (copy : Bool) (fill : Cell) (h : HDir) (v : VDir) (m : Memory Cell),
    vshift v copy fill (hshift h copy fill m) = hshift h copy fill (vshift v copy fill m)

/-- Rotations are undone by the opposite rotation, by fifty in all horizontally and by eighteen in all vertically; a preset shift
right and then left loses column 49 alone (44_scroll.md section 4, the spec's own inference). -/
def Obligations.ScrollRotationsReturn : Prop :=
  ∀ (fill : Cell) (m : Memory Cell), ∀ x < 50, ∀ Y < 216,
    cellAt (hshift .left true fill (hshift .right true fill m)) x Y = cellAt m x Y ∧
    cellAt (vshift .up true fill (vshift .down true fill m)) x Y = cellAt m x Y ∧
    (∀ h, cellAt ((hshift h true fill)^[50] m) x Y = cellAt m x Y) ∧
    (∀ v, cellAt ((vshift v true fill)^[18] m) x Y = cellAt m x Y) ∧
    cellAt (hshift .left false fill (hshift .right false fill m)) x Y = if x = 49 then fill else cellAt m x Y

/-! ## Every pack -/

/-- Every handler is total: whatever the pack and the state, executing it answers a next state (40_decoder_dispatch.md section 4;
00_scope.md section 5). -/
def Obligations.PackContentsNeverRaise : Prop :=
  ∀ (P : Pack) (s : State), ∃ t, exec (decodePack P) s = .next t

/-- A pack writes the palette, VRAM, the flags and the border index alone: not the cursor, the stream, the framebuffer, the pending
actions or the outputs; and what it writes depends on those six elements of the core alone (40_decoder_dispatch.md section 3). -/
def Obligations.PackReadsAndWritesSixElements : Prop :=
  ∀ (i : Instr) (s s' : State),
    s.core.pal = s'.core.pal → s.core.vram = s'.core.vram → s.core.dirty = s'.core.dirty →
    s.core.screenDirty = s'.core.screenDirty → s.core.borderDirty = s'.core.borderDirty →
    s.core.borderIndex = s'.core.borderIndex →
    ∃ d, d.currentPack = s.core.currentPack ∧ exec i s = .next { s with core := d } ∧
      exec i s' = .next { s' with core := { d with currentPack := s'.core.currentPack } }

/-- No pack clears a flag (60_exceptions.md section 7: the pack stream may only set flags). -/
def Obligations.PacksNeverClearFlags : Prop :=
  ∀ (i : Instr) (s : State), ∃ t, exec i s = .next t ∧
    (s.core.screenDirty = true → t.core.screenDirty = true) ∧ (s.core.borderDirty = true → t.core.borderDirty = true) ∧
    ∀ k, Memory.read flagUnlisted s.core.dirty k = true → Memory.read flagUnlisted t.core.dirty k = true

/-- A pack that leaves `screen_dirty` false has changed no palette entry, and no cell outside blocks whose flag is now set
(10_state.md R23 and R25; 43_render.md section 6). -/
def Obligations.ChangesAreCoveredByFlags : Prop :=
  ∀ (i : Instr) (s : State), ∃ t, exec i s = .next t ∧
    (t.core.screenDirty = false → t.core.pal = s.core.pal ∧
      ∀ x < 50, ∀ Y < 216, t.core.cell (Y * 50 + x) ≠ s.core.cell (Y * 50 + x) → t.core.blockFlag x (Y / 12) = true)

/-! ## The commands -/

/-- `apply_pack` is what executing a pack does to the core, and DECODE_TO a target at or ahead of the cursor, over a stream long
enough, is the left fold of `apply_pack` over the packs of the range in increasing index order, after which the cursor is the target
and the output is ERR_OK (40_decoder_dispatch.md sections 2 and 3; 00_scope.md section 5). -/
def Obligations.DecodeForwardIsTheFold : Prop :=
  (∀ (P : Pack) (s : State), exec (decodePack P) s = .next { s with core := applyPack s.core P }) ∧
  ∀ (s : State) (target : PackIndex) (rest : List HostAction),
    s.pending = .command (.decodeTo target) :: rest → 24 * target.toNat ≤ s.env.stream.length →
    s.core.currentPack.toNat ≤ target.toNat →
    step s = .next { s with
      core := { (packsOf s.env.stream s.core.currentPack.toNat (target.toNat - s.core.currentPack.toNat)).foldl applyPack s.core with
        currentPack := target }
      pending := rest
      outputs := s.outputs ++ [.decodeResult .ok] }

/-- DECODE_TO a target behind the cursor resets the whole core and replays packs 0 to `target - 1` of the stream as it now is, the
framebuffer not touched; and this is the only case in which a DECODE_TO makes the cursor smaller: 40_decoder_dispatch.md R104. -/
def Obligations.BackwardSeekReplaysFromReset : Prop :=
  ∀ (s : State) (target : PackIndex) (rest : List HostAction), s.pending = .command (.decodeTo target) :: rest →
    (24 * target.toNat ≤ s.env.stream.length → target.toNat < s.core.currentPack.toNat →
      step s = .next { s with
        core := { replay s.env.stream target.toNat with currentPack := target }
        pending := rest
        outputs := s.outputs ++ [.decodeResult .ok] }) ∧
    ∀ t, step s = .next t → t.core.currentPack.toNat < s.core.currentPack.toNat →
      24 * target.toNat ≤ s.env.stream.length ∧ target.toNat < s.core.currentPack.toNat

/-- DECODE_TO beyond the stream reports INSUFFICIENT_INPUT, code 1, and changes neither the core nor the environment, also when the
target lies behind the cursor (60_exceptions.md sections 1, 3 and 4; that the test comes first and nothing changes is decision
D10). -/
def Obligations.InsufficientInputChangesNothing : Prop :=
  ResultCode.insufficientInput.code = 1 ∧ ResultCode.ok.code = 0 ∧
  ∀ (s : State) (target : PackIndex) (rest : List HostAction),
    s.pending = .command (.decodeTo target) :: rest → s.env.stream.length < 24 * target.toNat →
    step s = .next { s with pending := rest, outputs := s.outputs ++ [.decodeResult .insufficientInput] }

/-- DECODE_TO the same target a second time changes no state (40_decoder_dispatch.md section 2, W7). -/
def Obligations.DecodeToSameTargetIsIdempotent : Prop :=
  ∀ (s : State) (target : PackIndex) (rest : List HostAction),
    s.pending = .command (.decodeTo target) :: .command (.decodeTo target) :: rest →
    ∃ t o, step s = .next t ∧ t.outputs = s.outputs ++ [o] ∧
      step t = .next { t with pending := rest, outputs := t.outputs ++ [o] }

/-- Two forward DECODE_TO commands leave the core as the second one alone would (95_test_vectors.md V-D17). -/
def Obligations.ForwardDecodesCompose : Prop :=
  ∀ (s : State) (a b : PackIndex),
    s.core.currentPack.toNat ≤ a.toNat → a.toNat ≤ b.toNat → 24 * b.toNat ≤ s.env.stream.length →
    ∃ t u w,
      step { s with pending := [.command (.decodeTo a), .command (.decodeTo b)] } = .next t ∧ step t = .next u ∧
      step { s with pending := [.command (.decodeTo b)] } = .next w ∧ u.core = w.core ∧ u.env = w.env

/-- A forward DECODE_TO depends on the stream's bytes in the range of its packs alone: a change to a pack before the cursor is not
seen, nor one at or beyond the target (20_memory.md section 9, decision D16). -/
def Obligations.DecodeReadsOnlyItsRange : Prop :=
  ∀ (s : State) (st : PackStream) (target : PackIndex),
    s.core.currentPack.toNat ≤ target.toNat → 24 * target.toNat ≤ s.env.stream.length → 24 * target.toNat ≤ st.length →
    (∀ a, 24 * s.core.currentPack.toNat ≤ a → a < 24 * target.toNat → st.byteAt a = s.env.stream.byteAt a) →
    ∃ t u,
      step { s with pending := [.command (.decodeTo target)] } = .next t ∧
      step { s with pending := [.command (.decodeTo target)], env := { s.env with stream := st } } = .next u ∧
      u.core = t.core ∧ u.outputs = t.outputs

/-- RESET zeroes every element of the core's state, whatever it was, and touches neither the stream nor the framebuffer:
70_reset_and_hazards.md R220. -/
def Obligations.ResetZeroesTheCore : Prop :=
  ∀ (s : State) (rest : List HostAction), s.pending = .command .reset :: rest →
    ∃ t, step s = .next t ∧
      (∀ (i : Nat) (h : i < 16), t.core.pal[i] = ⟨0, 0, 0⟩) ∧ (∀ j, t.core.cell j = 0) ∧
      (∀ x y, t.core.blockFlag x y = false) ∧ t.core.screenDirty = false ∧ t.core.borderDirty = false ∧
      t.core.borderIndex = 0 ∧ t.core.currentPack = 0 ∧
      t.env = s.env ∧ t.pending = rest ∧ t.outputs = s.outputs ++ [.resetDone]

/-- The machine at power-on is in ResetState (10_state.md section 9; that power-on equals reset is decision D15, log entry 8). -/
def Obligations.PowerOnIsResetState : Prop :=
  (∀ (i : Nat) (h : i < 16), State.reset.core.pal[i] = ⟨0, 0, 0⟩) ∧ (∀ j, State.reset.core.cell j = 0) ∧
  (∀ x y, State.reset.core.blockFlag x y = false) ∧ State.reset.core.screenDirty = false ∧
  State.reset.core.borderDirty = false ∧ State.reset.core.borderIndex = 0 ∧ State.reset.core.currentPack = 0

/-- The fetch of pack `k` from a stream the host has supplied gives its bytes `24k` to `24k + 23`, and supplying a stream changes
nothing else (20_memory.md section 2; that a stream stays supplied until another is, is log entry 2). -/
def Obligations.FetchReadsThePackBytes : Prop :=
  ∀ (s : State) (bytes : List Byte) (rest : List HostAction), s.pending = .supplyStream bytes :: rest →
    ∃ st, step s = .next { s with pending := rest, env := { s.env with stream := st } } ∧ st.length = bytes.length ∧
      ∀ (k n : Nat) (hn : n < 24) (hk : 24 * (k + 1) ≤ bytes.length), (st.fetchPack k)[n] = bytes[24 * k + n]

/-- When the host asks for one more pack and the stream holds it, the step is `exec` of the decoded instruction, and then the cursor
stands after the pack and the output is ERR_OK (00_scope.md section 5; 40_decoder_dispatch.md section 2). -/
def Obligations.StepRunsTheDecodedInstruction : Prop :=
  ∀ (s t : State) (i : Instr) (rest : List HostAction),
    s.core.currentPack.toNat + 1 < 2 ^ 32 → 24 * (s.core.currentPack.toNat + 1) ≤ s.env.stream.length →
    s.pending = .command (.decodeTo (s.core.currentPack + 1)) :: rest →
    decodePack (s.env.stream.fetchPack s.core.currentPack.toNat) = i → exec i { s with pending := rest } = .next t →
    step s = .next { t with
      core := { t.core with currentPack := s.core.currentPack + 1 }
      outputs := t.outputs ++ [.decodeResult .ok] }

/-- A word placed by the host runs as the very next instruction: the step after placing it executes what the decoder reads from it
(the model's own way of placing an instruction, log entries 4 and 10). -/
def Obligations.PlacedWordRunsNext : Prop :=
  ∀ (s : State) (nbits w : Nat), s.core.currentPack.toNat + 1 < 2 ^ 32 →
    ∃ (i : Instr) (d : Decoder) (st : PackStream),
      decodeTableWord nbits w = some i ∧ exec i s = .next { s with core := d } ∧
      step (s.withFetchWord nbits w) = .next { s with
        core := { d with currentPack := s.core.currentPack + 1 }
        env := { s.env with stream := st }
        outputs := s.outputs ++ [.decodeResult .ok] }

/-- With nothing pending the core is idle and holds its state (60_exceptions.md sections 2 and 8; log entry 1). -/
def Obligations.IdleHoldsState : Prop :=
  ∀ s : State, s.pending = [] → step s = .next s

/-- There is no other exception: every step answers a next state, and it adds the output INSUFFICIENT_INPUT only where the action was
a DECODE_TO that asks for more than the stream holds: 60_exceptions.md R201. -/
def Obligations.NoOtherException : Prop :=
  ∀ s : State, ∃ t, step s = .next t ∧
    (t.outputs = s.outputs ++ [.decodeResult .insufficientInput] →
      ∃ target rest, s.pending = .command (.decodeTo target) :: rest ∧ s.env.stream.length < 24 * target.toNat)

/-- For the same core, command and environment the result is the same, whatever else is pending and whatever was put out before
(00_scope.md section 5, decision D9). -/
def Obligations.TransitionIsDeterminedByCoreCommandEnv : Prop :=
  ∀ (s s' : State) (c : Command) (rest rest' : List HostAction),
    s.pending = .command c :: rest → s'.pending = .command c :: rest' → s.core = s'.core → s.env = s'.env →
    ∃ d e o, step s = .next { core := d, env := e, pending := rest, outputs := s.outputs ++ [o] } ∧
      step s' = .next { core := d, env := e, pending := rest', outputs := s'.outputs ++ [o] }

/-- Only RESET and an accepted DECODE_TO move the cursor, to 0 and to the target (10_state.md section 3; 40_decoder_dispatch.md
section 4, the spec's own inference). -/
def Obligations.OnlyResetAndDecodeMoveTheCursor : Prop :=
  ∀ s : State, ∃ t, step s = .next t ∧
    (t.core.currentPack = s.core.currentPack ∨
      (∃ rest, s.pending = .command .reset :: rest ∧ t.core.currentPack = 0) ∨
      ∃ target rest, s.pending = .command (.decodeTo target) :: rest ∧ 24 * target.toNat ≤ s.env.stream.length ∧
        t.core.currentPack = target)

/-! ## The renderer -/

/-- RENDER_FRAME with `screen_dirty` or `border_dirty` set takes the full path: every output pixel shows its colour, taken from VRAM
one column and one font row in, all flags of the ring included become false, nothing else of the core changes, and the output is
`full`, nothing listed (43_render.md sections 1, 2, 3 and 5; the bytes R, G, B, A of a pixel in that order are decision D12, log entry
14; that the empty mask is an empty list is the model's form, decision D13, log entry 9). -/
def Obligations.FullRenderWritesEveryPixel : Prop :=
  ∀ (s : State) (rest : List HostAction), s.pending = .command .renderFrame :: rest →
    s.core.screenDirty = true ∨ s.core.borderDirty = true →
    ∃ fb dirty, step s = .next { s with
        core := { s.core with dirty := dirty, screenDirty := false, borderDirty := false }
        env := { s.env with fb := fb }
        pending := rest
        outputs := s.outputs ++ [.renderResult true []] } ∧
      (∀ k, Memory.read flagUnlisted dirty k = false) ∧
      ∀ Yo < 192, ∀ cx, 1 ≤ cx → cx ≤ 48 → ∀ p < 6,
        PixelShows fb (6 * (cx - 1) + p) Yo (s.core.colour (lane (s.core.cell ((Yo + 12) * 50 + cx)) p))

/-- RENDER_FRAME with neither flag set takes the partial path: every pixel of a dirty visible block shows its colour; every other byte
of the framebuffer is as before; exactly the flags of those blocks are cleared; nothing else of the core changes; the output lists
exactly those blocks (43_render.md section 4; the form of the list is decision D13, log entry 9, the order of a pixel's bytes
decision D12, log entry 14). -/
def Obligations.PartialRenderWritesDirtyBlocks : Prop :=
  ∀ (s : State) (rest : List HostAction), s.pending = .command .renderFrame :: rest →
    s.core.screenDirty = false → s.core.borderDirty = false →
    ∃ fb dirty updated, step s = .next { s with
        core := { s.core with dirty := dirty }
        env := { s.env with fb := fb }
        pending := rest
        outputs := s.outputs ++ [.renderResult false updated] } ∧
      (∀ bx by', VisibleDirty s.core bx by' → ∀ r < 12, ∀ p < 6,
        PixelShows fb (6 * (bx - 1) + p) (12 * (by' - 1) + r) (s.core.colour (lane (s.core.cell ((12 * by' + r) * 50 + bx)) p))) ∧
      (∀ o, (∀ bx by', VisibleDirty s.core bx by' → ¬ InBlock bx by' o) → fbByte fb o = fbByte s.env.fb o) ∧
      (∀ x < 50, ∀ y < 18, Memory.read flagUnlisted dirty (y * 50 + x) = true ↔
        s.core.blockFlag x y = true ∧ (x = 0 ∨ x = 49 ∨ y = 0 ∨ y = 17)) ∧
      (∀ i j, (i, j) ∈ updated ↔ VisibleDirty s.core (i + 1) (j + 1)) ∧ updated.Nodup

/-- Rendering is pure: it never changes VRAM, the palette, the border index or the cursor, and a second RENDER_FRAME in succession
writes nothing and changes nothing (43_render.md section 6). -/
def Obligations.RenderIsPureAndIdempotent : Prop :=
  ∀ (s : State) (rest : List HostAction), s.pending = .command .renderFrame :: .command .renderFrame :: rest →
    ∃ t u, step s = .next t ∧ step t = .next u ∧
      t.core.vram = s.core.vram ∧ t.core.pal = s.core.pal ∧ t.core.borderIndex = s.core.borderIndex ∧
      t.core.currentPack = s.core.currentPack ∧ t.env.stream = s.env.stream ∧
      u = { t with pending := rest, outputs := t.outputs ++ [.renderResult false []] }

/-- With no flag of a visible block, `screen_dirty` or `border_dirty` set, RENDER_FRAME writes nothing and changes nothing
(43_render.md section 6, the spec's own inference). -/
def Obligations.NothingDirtyWritesNothing : Prop :=
  ∀ (s : State) (rest : List HostAction), s.pending = .command .renderFrame :: rest →
    s.core.screenDirty = false → s.core.borderDirty = false → (∀ bx by', ¬ VisibleDirty s.core bx by') →
    step s = .next { s with pending := rest, outputs := s.outputs ++ [.renderResult false []] }

/-- After a font write to a visible block, rendering only that block writes the bytes that a full render would leave there
(43_render.md section 6, W5). -/
def Obligations.PartialAndFullRenderAgree : Prop :=
  ∀ (s t : State) (f : FontOperands),
    exec (.copyFont f) s = .next t ∨ exec (.xorFont f) s = .next t →
    f.ch.toNat ≤ 1 → 1 ≤ f.x.toNat → f.x.toNat ≤ 48 → 1 ≤ f.y.toNat → f.y.toNat ≤ 16 →
    s.core.screenDirty = false → s.core.borderDirty = false →
    ∃ u w,
      step { t with pending := [.command .renderFrame] } = .next u ∧
      step { t with pending := [.command .renderFrame], core := { t.core with screenDirty := true } } = .next w ∧
      ∀ o, InBlock f.x.toNat f.y.toNat o → fbByte u.env.fb o = fbByte w.env.fb o ∧ (fbByte u.env.fb o).isSome

/-- No value of `border_index` changes a byte that RENDER_FRAME writes, or its output (43_render.md section 6, the spec's own
inference). -/
def Obligations.BorderIsNotRendered : Prop :=
  ∀ (s : State) (rest : List HostAction) (b : PaletteIndex), s.pending = .command .renderFrame :: rest →
    ∃ t u, step s = .next t ∧ step { s with core := { s.core with borderIndex := b } } = .next u ∧
      u.env = t.env ∧ u.outputs = t.outputs

/-! ## Invariants -/

/-- Every step keeps every memory in canonical form, with its addresses inside its space. -/
def Obligations.StepKeepsCanonical : Prop :=
  ∀ s t : State, s.Canonical → step s = .next t → t.Canonical

/-- The state after reset is canonical. -/
def Obligations.ResetIsCanonical : Prop := State.reset.Canonical

/-- Every step keeps every palette channel a multiple of 17 (10_state.md section 10 part (a), the spec's own inference). -/
def Obligations.StepKeepsPaletteExpanded : Prop :=
  ∀ s t : State, PaletteExpanded s.core → step s = .next t → PaletteExpanded t.core

/-- As long as the host does not replace the stream, palette, VRAM and border index stay what the packs before the cursor leave, from
ResetState, whatever commands are executed; reset establishes it (10_state.md section 10 part (e), the spec's own inference). -/
def Obligations.StepKeepsDecodedPrefix : Prop :=
  DecodedPrefix State.reset ∧
  ∀ s t : State, DecodedPrefix s → (∀ bytes rest, s.pending ≠ .supplyStream bytes :: rest) → step s = .next t → DecodedPrefix t

/-- Every step that is no RESET, no backward seek and no new framebuffer keeps every output pixel that the framebuffer does not show in
its right colour covered by a set flag (43_render.md section 6, the spec's own inference; the order of a pixel's bytes is
decision D12, log entry 14). -/
def Obligations.StepKeepsFramebufferCovered : Prop :=
  ∀ s t : State, Covered s → (∀ a rest, s.pending = a :: rest → KeepsPicture s a) → step s = .next t → Covered t

/-- The framebuffer is covered after any full render, and after a reset over a framebuffer the host has filled with opaque black
(43_render.md section 6; 70_reset_and_hazards.md sections 2 and 3, the spec's own inference; the order of a pixel's bytes is decision
D12, log entry 14). -/
def Obligations.FullRenderAndBlackFillCover : Prop :=
  (∀ s t : State, ∀ rest, s.pending = .command .renderFrame :: rest →
    s.core.screenDirty = true ∨ s.core.borderDirty = true → step s = .next t →
      Covered t ∧ t.core.screenDirty = false ∧ ∀ x y, t.core.blockFlag x y = false) ∧
  ∀ s t : State, ∀ rest, s.pending = .command .reset :: rest →
    (∀ Xo < 288, ∀ Yo < 192, PixelShows s.env.fb Xo Yo ⟨0, 0, 0⟩) → step s = .next t → Covered t
end

