-- ==== Sys2Proof/Laws/Decode.lean ====
section
/-! SUPPORT. The fields of a pack as numbers, the bytes of an encoded pack, and that a byte sequence which begins with a pack is read
as that pack. -/

namespace Sys2Proof

/-! ## Fields as numbers -/

theorem cmdOf_toNat (P : Pack) : (cmdOf P).toNat = P[0].toNat % 64 := by simp [cmdOf]

theorem instOf_toNat (P : Pack) : (instOf P).toNat = P[1].toNat % 64 := by simp [instOf]

theorem cmdOf_eq_iff (P : Pack) (v : Symbol) : cmdOf P = v ↔ P[0].toNat % 64 = v.toNat := by
  rw [← BitVec.toNat_inj, cmdOf_toNat]

theorem instOf_eq_iff (P : Pack) (v : Symbol) : instOf P = v ↔ P[1].toNat % 64 = v.toNat := by
  rw [← BitVec.toNat_inj, instOf_toNat]

theorem indexField_toNat (P : Pack) : (indexField P).toNat = P[4].toNat % 16 := by simp [indexField]

theorem code_toNat (b : Byte) : (b.extractLsb' 4 2).toNat = b.toNat / 16 % 4 := by
  rw [BitVec.extractLsb'_toNat, Nat.shiftRight_eq_div_pow]

/-! ## Encoding -/

/-- Any field of a pack byte lies in the symbol it carries. -/
theorem byteOf_extract {w : Nat} (v : Symbol) (i : Nat) (h : i + w ≤ 6) :
    (byteOf v).extractLsb' i w = v.extractLsb' i w := by
  unfold byteOf
  refine BitVec.eq_of_getLsbD_eq fun k hk => ?_
  have h2 : i + k < 6 := by omega
  rw [BitVec.getLsbD_extractLsb', BitVec.getLsbD_append, BitVec.getLsbD_extractLsb', if_pos h2]

@[simp] theorem byteOf_symbol (v : Symbol) : (byteOf v).extractLsb' 0 6 = v := by revert v; decide

@[simp] theorem cmdOf_packOf (cmd inst : Symbol) (data : Vector Symbol 16) : cmdOf (packOf cmd inst data) = cmd := by
  simp [cmdOf, packOf]

@[simp] theorem instOf_packOf (cmd inst : Symbol) (data : Vector Symbol 16) : instOf (packOf cmd inst data) = inst := by
  simp [instOf, packOf]

theorem packOf_data (cmd inst : Symbol) (data : Vector Symbol 16) (n : Nat) (h : 4 ≤ n ∧ n < 20) :
    (packOf cmd inst data)[n] = byteOf data[n - 4] := by
  have h0 : ¬ n = 0 := by omega
  have h1 : ¬ n = 1 := by omega
  simp [packOf, h0, h1, h]

theorem packOf_unused (cmd inst : Symbol) (data : Vector Symbol 16) (n : Nat) (hn : n < 24)
    (h : n = 2 ∨ n = 3 ∨ 20 ≤ n) : (packOf cmd inst data)[n] = 0#8 := by
  have h0 : ¬ n = 0 := by omega
  have h1 : ¬ n = 1 := by omega
  have h2 : ¬ (4 ≤ n ∧ n < 20) := by omega
  simp [packOf, h0, h1, h2]

@[simp] theorem HDir.ofCode_code (h : HDir) : HDir.ofCode h.code = h := by cases h <;> rfl

@[simp] theorem VDir.ofCode_code (v : VDir) : VDir.ofCode v.code = v := by cases v <;> rfl

/-! ## Byte sequences -/

/-- The first 24 bytes of a sequence that begins with a pack are the pack. -/
theorem decode_append (P : Pack) (rest : List Byte) : decode (P.toList ++ rest) = .ok (decodePack P, rest) := by
  unfold decode
  have hl : P.toList.length = 24 := by simp
  rw [dif_pos (by simp)]
  have e : (Vector.ofFn fun n : Fin 24 => (P.toList ++ rest)[n.val]'(by simp; omega)) = P := by
    refine Vector.ext fun n hn => ?_
    simp only [Vector.getElem_ofFn]
    rw [List.getElem_append_left (by omega)]
    exact Vector.getElem_toList _
  rw [e, List.drop_left' hl]

theorem decode_toList (P : Pack) : decode P.toList = .ok (decodePack P, []) := by
  have := decode_append P []
  rwa [List.append_nil] at this

/-- The decoder reads the pack that a table word stands for. -/
theorem decodeTableWord_eq (nbits w : Nat) : decodeTableWord nbits w = some (decodePack (tablePack nbits w)) := by
  unfold decodeTableWord
  rw [decode_toList]

end Sys2Proof
end

