-- ==== Sys2Proof/Laws/Memory.lean ====
section
/-! SUPPORT. The laws of memories: read after write, and that every operation keeps the canonical form. -/

namespace Sys2Proof.Machine

variable {α : Type}

/-! ## Reading after writing -/

theorem lookup_append (m n : Memory α) (a : Nat) :
    Memory.lookup (m ++ n) a = (Memory.lookup m a).or (Memory.lookup n a) := by
  induction m with
  | nil => rfl
  | cons p m ih => simp only [List.cons_append, Memory.lookup, ih]; split <;> simp

/-- Keeping the entries whose address satisfies a test. -/
theorem lookup_filter (m : Memory α) (keep : Nat → Bool) (b : Nat) :
    Memory.lookup (m.filter fun p => keep p.1) b = if keep b then Memory.lookup m b else none := by
  induction m with
  | nil => simp [Memory.lookup]
  | cons p m ih =>
    obtain ⟨k, w⟩ := p
    by_cases hk : keep k
    · rw [List.filter_cons_of_pos (by simpa using hk)]
      simp only [Memory.lookup, ih]
      by_cases hkb : k = b
      · subst hkb; simp [hk]
      · simp [hkb]
    · rw [List.filter_cons_of_neg (by simpa using hk), ih]
      by_cases hkb : k = b
      · subst hkb; simp [hk]
      · simp [Memory.lookup, hkb]

theorem lookup_insert (m : Memory α) (a b : Nat) (v : α) :
    Memory.lookup (Memory.insert m a v) b = if b = a then some v else Memory.lookup m b := by
  unfold Memory.insert
  rw [lookup_append, lookup_filter m (fun k => decide (k < a)), Memory.lookup, lookup_filter m (fun k => decide (a < k))]
  rcases Nat.lt_trichotomy b a with h | h | h
  · have h1 : ¬ b = a := by omega
    have h2 : ¬ a = b := by omega
    have h3 : ¬ a < b := by omega
    simp [h, h1, h2, h3]
  · simp [h]
  · have h1 : ¬ b = a := by omega
    have h2 : ¬ a = b := by omega
    have h3 : ¬ b < a := by omega
    simp [h, h1, h2, h3]

theorem lookup_erase (m : Memory α) (a b : Nat) :
    Memory.lookup (Memory.erase m a) b = if b = a then none else Memory.lookup m b := by
  unfold Memory.erase
  rw [lookup_filter m (fun k => k != a)]
  by_cases h : b = a <;> simp [h]

theorem read_write [DecidableEq α] (u : α) (m : Memory α) (a b : Nat) (v : α) :
    Memory.read u (Memory.write u m a v) b = if b = a then v else Memory.read u m b := by
  unfold Memory.read Memory.write
  split
  · rw [lookup_erase]; split <;> simp [*]
  · rw [lookup_insert]; split <;> simp [*]

/-- An address no entry lists. -/
theorem lookup_eq_none (m : Memory α) (a : Nat) (h : ∀ p ∈ m, p.1 ≠ a) : Memory.lookup m a = none := by
  induction m with
  | nil => rfl
  | cons p m ih =>
    simp only [Memory.lookup, h p (by simp), if_false]
    exact ih fun q hq => h q (by simp [hq])

theorem lookup_map_range (n : Nat) (f : Nat → α) (a : Nat) :
    Memory.lookup ((List.range' 0 n).map fun a => (a, f a)) a = if a < n then some (f a) else none := by
  rw [← List.range_eq_range']
  induction n with
  | zero => rfl
  | succ n ih =>
    rw [List.range_succ, List.map_append, lookup_append, ih]
    by_cases h : a < n
    · simp [h, Nat.lt_succ_of_lt h]
    · by_cases h' : a = n
      · simp [h', Memory.lookup]
      · have : ¬ a < n + 1 := by omega
        simp [h, this, Memory.lookup, Ne.symm h']

theorem tabulate_succ [DecidableEq α] (u : α) (n : Nat) (f : Nat → α) :
    Memory.tabulate u (n + 1) f = Memory.tabulate u n f ++ (if f n = u then [] else [(n, f n)]) := by
  unfold Memory.tabulate
  rw [← List.range_eq_range', ← List.range_eq_range', List.range_succ, List.filterMap_append]
  by_cases h : f n = u <;> simp [h]

theorem read_tabulate [DecidableEq α] (u : α) (n : Nat) (f : Nat → α) (a : Nat) :
    Memory.read u (Memory.tabulate u n f) a = if a < n then f a else u := by
  induction n with
  | zero => rfl
  | succ n ih =>
    rw [tabulate_succ]
    unfold Memory.read at ih ⊢
    rw [lookup_append]
    by_cases h : a = n
    · subst h
      have : Memory.lookup (Memory.tabulate u a f) a = none := by
        apply lookup_eq_none
        rintro p hp rfl
        simp [Memory.tabulate] at hp
        obtain ⟨b, hb, _, rfl⟩ := hp
        simp at hb
      rw [this]
      by_cases hf : f a = u <;> simp [hf, Memory.lookup]
    · have e : (a < n + 1) ↔ (a < n) := by omega
      simp only [e, ← ih]
      by_cases hf : f n = u <;> simp [hf, Memory.lookup, Ne.symm h]

/-! ## The canonical form -/

variable [DecidableEq α]

theorem wf_iff (size : Nat) (u : Option α) (m : Memory α) :
    Memory.wf size u m = true ↔ m.Pairwise (fun p q => p.1 < q.1) ∧ ∀ p ∈ m, p.1 < size ∧ some p.2 ≠ u := by
  simp [Memory.wf]

theorem wf_nil (size : Nat) (u : Option α) : Memory.wf size u [] = true := by simp [Memory.wf]

omit [DecidableEq α] in
theorem insert_keys (m : Memory α) (a : Nat) (v : α) (p : Nat × α) (h : p ∈ Memory.insert m a v) :
    p = (a, v) ∨ p ∈ m := by
  simp only [Memory.insert, List.mem_append, List.mem_filter, List.mem_cons] at h
  tauto

omit [DecidableEq α] in
theorem insert_pairwise (m : Memory α) (a : Nat) (v : α) (h : m.Pairwise fun p q => p.1 < q.1) :
    (Memory.insert m a v).Pairwise fun p q => p.1 < q.1 := by
  refine List.pairwise_append.2 ⟨h.filter _, List.pairwise_cons.2 ⟨fun q hq => ?_, h.filter _⟩, fun p hp q hq => ?_⟩
  · simpa using (List.mem_filter.1 hq).2
  · have hp' : p.1 < a := by simpa using (List.mem_filter.1 hp).2
    rcases List.mem_cons.1 hq with rfl | hq
    · exact hp'
    · have hq' : a < q.1 := by simpa using (List.mem_filter.1 hq).2
      omega

theorem insert_wf {size : Nat} {u : Option α} {m : Memory α} {a : Nat} {v : α} (h : Memory.wf size u m = true)
    (ha : a < size) (hv : some v ≠ u) : Memory.wf size u (Memory.insert m a v) = true := by
  have h := (wf_iff _ _ _).1 h
  refine (wf_iff _ _ _).2 ⟨insert_pairwise m a v h.1, fun p hp => ?_⟩
  rcases insert_keys m a v p hp with rfl | hp
  · exact ⟨ha, hv⟩
  · exact h.2 p hp

theorem erase_wf {size : Nat} {u : Option α} {m : Memory α} {a : Nat} (h : Memory.wf size u m = true) :
    Memory.wf size u (Memory.erase m a) = true := by
  have h := (wf_iff _ _ _).1 h
  exact (wf_iff _ _ _).2 ⟨h.1.filter _, fun p hp => h.2 p (List.mem_of_mem_filter hp)⟩

theorem write_wf {size : Nat} {u : α} {m : Memory α} {a : Nat} {v : α} (h : Memory.wf size (some u) m = true)
    (ha : a < size) : Memory.wf size (some u) (Memory.write u m a v) = true := by
  unfold Memory.write
  split
  · exact erase_wf h
  · exact insert_wf h ha (by simpa)

theorem tabulate_wf (u : α) (size : Nat) (f : Nat → α) : Memory.wf size (some u) (Memory.tabulate u size f) = true := by
  rw [wf_iff]
  induction size with
  | zero => exact ⟨.nil, by simp [Memory.tabulate]⟩
  | succ n ih =>
    rw [tabulate_succ]
    refine ⟨List.pairwise_append.2 ⟨ih.1, ?_, ?_⟩, ?_⟩
    · split <;> simp
    · intro p hp q hq
      have := (ih.2 p hp).1
      split at hq <;> simp_all
    · intro p hp
      rcases List.mem_append.1 hp with hp | hp
      · have := ih.2 p hp; exact ⟨Nat.lt_succ_of_lt this.1, this.2⟩
      · split at hp
        · simp at hp
        · obtain rfl := List.mem_singleton.1 hp
          exact ⟨Nat.lt_succ_self n, by simpa using ‹¬ f n = u›⟩

theorem mapRange_wf (n : Nat) (f : Nat → α) : Memory.wf n none ((List.range' 0 n).map fun a => (a, f a)) = true := by
  rw [← List.range_eq_range']
  refine (wf_iff _ _ _).2 ⟨?_, ?_⟩
  · exact List.pairwise_map.2 (List.pairwise_lt_range)
  · intro p hp; simp at hp; obtain ⟨a, ha, rfl⟩ := hp; exact ⟨ha, by simp⟩

omit [DecidableEq α] in
theorem lookup_head_lt (m : Memory α) (k b : Nat) (h : ∀ p ∈ m, k < p.1) (hb : b ≤ k) : Memory.lookup m b = none :=
  lookup_eq_none m b fun p hp => by have := h p hp; omega

omit [DecidableEq α] in
/-- Two memories in address order that list the same values are the same data. -/
theorem eq_of_lookup_eq {m n : Memory α} (hm : m.Pairwise fun p q => p.1 < q.1) (hn : n.Pairwise fun p q => p.1 < q.1)
    (h : ∀ a, Memory.lookup m a = Memory.lookup n a) : m = n := by
  induction m generalizing n with
  | nil =>
    cases n with
    | nil => rfl
    | cons q n => have := h q.1; simp [Memory.lookup] at this
  | cons p m ih =>
    cases n with
    | nil => have := h p.1; simp [Memory.lookup] at this
    | cons q n =>
      have hm' := List.pairwise_cons.1 hm
      have hn' := List.pairwise_cons.1 hn
      have hk : p.1 = q.1 := by
        rcases Nat.lt_trichotomy p.1 q.1 with hlt | heq | hlt
        · have := h p.1
          rw [lookup_head_lt (q :: n) p.1 p.1 (fun r hr => by
            rcases List.mem_cons.1 hr with rfl | hr
            · exact hlt
            · exact Nat.lt_trans hlt (hn'.1 r hr)) le_rfl] at this
          simp [Memory.lookup] at this
        · exact heq
        · have := h q.1
          rw [lookup_head_lt (p :: m) q.1 q.1 (fun r hr => by
            rcases List.mem_cons.1 hr with rfl | hr
            · exact hlt
            · exact Nat.lt_trans hlt (hm'.1 r hr)) le_rfl] at this
          simp [Memory.lookup] at this
      have hv : p.2 = q.2 := by have := h p.1; simp [Memory.lookup, hk] at this; exact this
      have hpq : p = q := Prod.ext hk hv
      subst hpq
      congr 1
      refine ih hm'.2 hn'.2 fun a => ?_
      by_cases ha : p.1 = a
      · rw [lookup_head_lt m p.1 a hm'.1 (by omega), lookup_head_lt n p.1 a hn'.1 (by omega)]
      · have := h a; simpa [Memory.lookup, ha] using this

/-- Two canonical memories with the same unlisted value that read alike everywhere are the same data. -/
theorem eq_of_read_eq {size : Nat} {u : α} {m n : Memory α} (hm : Memory.wf size (some u) m = true)
    (hn : Memory.wf size (some u) n = true) (h : ∀ a, a < size → Memory.read u m a = Memory.read u n a) : m = n := by
  rw [wf_iff] at hm hn
  refine eq_of_lookup_eq hm.1 hn.1 fun a => ?_
  have key : ∀ l : Memory α, (l.Pairwise (fun p q => p.1 < q.1) ∧ ∀ p ∈ l, p.1 < size ∧ some p.2 ≠ some u) → ∀ v, Memory.lookup l a = some v → a < size ∧ v ≠ u := by
    intro l hl v hv
    have : (a, v) ∈ l := by
      clear hl
      induction l with
      | nil => simp [Memory.lookup] at hv
      | cons p l ih =>
        simp only [Memory.lookup] at hv
        split at hv
        · simp only [Option.some.injEq] at hv
          subst hv; rename_i hp; simp [← hp]
        · exact List.mem_cons_of_mem _ (ih hv)
    have := hl.2 _ this
    simpa using this
  cases hx : Memory.lookup m a with
  | none =>
    cases hy : Memory.lookup n a with
    | none => rfl
    | some w =>
      have := key n hn w hy
      have e := h a this.1
      simp [Memory.read, hx, hy] at e
      exact absurd e.symm this.2
  | some v =>
    have hv := key m hm v hx
    have e := h a hv.1
    cases hy : Memory.lookup n a with
    | none => simp [Memory.read, hx, hy] at e; exact absurd e hv.2
    | some w => simp [Memory.read, hx, hy] at e; rw [e]

end Sys2Proof.Machine
end

