-- ==== Sys2Proof/Laws/Operands.lean ====
section
/-! SUPPORT. The packed-lane operations, lane by lane (42_font.md R147), and the operand checks as ranges. -/

namespace Sys2Proof.Machine

/-- `rep6(c) = c * 0x111111` (00_scope.md R14; 41_palette_clut.md R128). -/
theorem rep6_eq_mul (c : PaletteIndex) : rep6 c = c.setWidth 24 * 0x111111#24 := by
  revert c; decide

theorem lane_rep6 (c : PaletteIndex) (p : Nat) (h : p < 6) : lane (rep6 c) p = c := by
  interval_cases p <;> revert c <;> decide

theorem lane_xor (a b : Cell) (p : Nat) : lane (a ^^^ b) p = lane a p ^^^ lane b p := by
  unfold lane
  ext i hi
  simp

theorem extract_append_low {n : Nat} (x : BitVec n) (a : BitVec 4) : (x ++ a).extractLsb' 0 4 = a := by
  refine BitVec.eq_of_getLsbD_eq fun i hi => ?_
  rw [BitVec.getLsbD_extractLsb', BitVec.getLsbD_append]
  simp [hi]

theorem extract_append_high {n : Nat} (x : BitVec n) (a : BitVec 4) (k : Nat) :
    (x ++ a).extractLsb' (k + 4) 4 = x.extractLsb' k 4 := by
  refine BitVec.eq_of_getLsbD_eq fun i hi => ?_
  rw [BitVec.getLsbD_extractLsb', BitVec.getLsbD_append, BitVec.getLsbD_extractLsb', if_neg (by omega)]
  congr 2
  omega

/-- The lanes of six concatenated indices, the last one lane 0. -/
theorem lane_append (a5 a4 a3 a2 a1 a0 : BitVec 4) (p : Nat) (h : p < 6) :
    lane (a5 ++ a4 ++ a3 ++ a2 ++ a1 ++ a0 : BitVec (4 + 4 + 4 + 4 + 4 + 4)) p =
      match p with
      | 0 => a0 | 1 => a1 | 2 => a2 | 3 => a3 | 4 => a4 | _ => a5 := by
  unfold lane
  interval_cases p
  · exact extract_append_low _ _
  · exact (extract_append_high _ _ 0).trans (extract_append_low _ _)
  · exact (extract_append_high _ _ 4).trans ((extract_append_high _ _ 0).trans (extract_append_low _ _))
  · exact (extract_append_high _ _ 8).trans ((extract_append_high _ _ 4).trans ((extract_append_high _ _ 0).trans
      (extract_append_low _ _)))
  · exact (extract_append_high _ _ 12).trans ((extract_append_high _ _ 8).trans ((extract_append_high _ _ 4).trans
      ((extract_append_high _ _ 0).trans (extract_append_low _ _))))
  · exact (extract_append_high _ _ 16).trans ((extract_append_high _ _ 12).trans ((extract_append_high _ _ 8).trans
      ((extract_append_high _ _ 4).trans ((extract_append_high _ _ 0).trans (by simp)))))

theorem lane_cellVal (row : Symbol) (fg bg : PaletteIndex) (p : Nat) (h : p < 6) :
    lane (cellVal row fg bg) p = selectedIndex row fg bg p := by
  refine (lane_append _ _ _ _ _ _ p h).trans ?_
  interval_cases p <;> rfl

theorem channelActive_iff (ch : BitVec 4) : channelActive ch = true ↔ ch.toNat ≤ 1 := by
  revert ch; decide

theorem inRange_iff (x : BitVec 6) (y : BitVec 5) : inRange x y = true ↔ x.toNat ≤ 49 ∧ y.toNat ≤ 17 := by
  simp [inRange]

theorem expand17_toNat (n : BitVec 4) : (expand17 n).toNat = n.toNat * 17 := by
  revert n; decide

end Sys2Proof.Machine
end

