-- ==== Sys2Proof/Laws/State.lean ====
section
/-! SUPPORT. One lemma per field per update of the core and of the machine: what each update writes and what it leaves. -/

namespace Sys2Proof.Machine

/-! ## Updates of the core -/

@[simp] theorem withPal_pal (d : Decoder) (v : Vector Colour 16) : (d.withPal v).pal = v := rfl
@[simp] theorem withPal_vram (d : Decoder) (v : Vector Colour 16) : (d.withPal v).vram = d.vram := rfl
@[simp] theorem withPal_dirty (d : Decoder) (v : Vector Colour 16) : (d.withPal v).dirty = d.dirty := rfl
@[simp] theorem withPal_screenDirty (d : Decoder) (v : Vector Colour 16) : (d.withPal v).screenDirty = d.screenDirty := rfl
@[simp] theorem withPal_borderDirty (d : Decoder) (v : Vector Colour 16) : (d.withPal v).borderDirty = d.borderDirty := rfl
@[simp] theorem withPal_borderIndex (d : Decoder) (v : Vector Colour 16) : (d.withPal v).borderIndex = d.borderIndex := rfl
@[simp] theorem withPal_currentPack (d : Decoder) (v : Vector Colour 16) : (d.withPal v).currentPack = d.currentPack := rfl

@[simp] theorem withVram_pal (d : Decoder) (v : Memory Cell) : (d.withVram v).pal = d.pal := rfl
@[simp] theorem withVram_vram (d : Decoder) (v : Memory Cell) : (d.withVram v).vram = v := rfl
@[simp] theorem withVram_dirty (d : Decoder) (v : Memory Cell) : (d.withVram v).dirty = d.dirty := rfl
@[simp] theorem withVram_screenDirty (d : Decoder) (v : Memory Cell) : (d.withVram v).screenDirty = d.screenDirty := rfl
@[simp] theorem withVram_borderDirty (d : Decoder) (v : Memory Cell) : (d.withVram v).borderDirty = d.borderDirty := rfl
@[simp] theorem withVram_borderIndex (d : Decoder) (v : Memory Cell) : (d.withVram v).borderIndex = d.borderIndex := rfl
@[simp] theorem withVram_currentPack (d : Decoder) (v : Memory Cell) : (d.withVram v).currentPack = d.currentPack := rfl

@[simp] theorem withDirty_pal (d : Decoder) (v : Memory Bool) : (d.withDirty v).pal = d.pal := rfl
@[simp] theorem withDirty_vram (d : Decoder) (v : Memory Bool) : (d.withDirty v).vram = d.vram := rfl
@[simp] theorem withDirty_dirty (d : Decoder) (v : Memory Bool) : (d.withDirty v).dirty = v := rfl
@[simp] theorem withDirty_screenDirty (d : Decoder) (v : Memory Bool) : (d.withDirty v).screenDirty = d.screenDirty := rfl
@[simp] theorem withDirty_borderDirty (d : Decoder) (v : Memory Bool) : (d.withDirty v).borderDirty = d.borderDirty := rfl
@[simp] theorem withDirty_borderIndex (d : Decoder) (v : Memory Bool) : (d.withDirty v).borderIndex = d.borderIndex := rfl
@[simp] theorem withDirty_currentPack (d : Decoder) (v : Memory Bool) : (d.withDirty v).currentPack = d.currentPack := rfl

@[simp] theorem withScreenDirty_pal (d : Decoder) (v : Bool) : (d.withScreenDirty v).pal = d.pal := rfl
@[simp] theorem withScreenDirty_vram (d : Decoder) (v : Bool) : (d.withScreenDirty v).vram = d.vram := rfl
@[simp] theorem withScreenDirty_dirty (d : Decoder) (v : Bool) : (d.withScreenDirty v).dirty = d.dirty := rfl
@[simp] theorem withScreenDirty_screenDirty (d : Decoder) (v : Bool) : (d.withScreenDirty v).screenDirty = v := rfl
@[simp] theorem withScreenDirty_borderDirty (d : Decoder) (v : Bool) : (d.withScreenDirty v).borderDirty = d.borderDirty := rfl
@[simp] theorem withScreenDirty_borderIndex (d : Decoder) (v : Bool) : (d.withScreenDirty v).borderIndex = d.borderIndex := rfl
@[simp] theorem withScreenDirty_currentPack (d : Decoder) (v : Bool) : (d.withScreenDirty v).currentPack = d.currentPack := rfl

@[simp] theorem withBorderDirty_pal (d : Decoder) (v : Bool) : (d.withBorderDirty v).pal = d.pal := rfl
@[simp] theorem withBorderDirty_vram (d : Decoder) (v : Bool) : (d.withBorderDirty v).vram = d.vram := rfl
@[simp] theorem withBorderDirty_dirty (d : Decoder) (v : Bool) : (d.withBorderDirty v).dirty = d.dirty := rfl
@[simp] theorem withBorderDirty_screenDirty (d : Decoder) (v : Bool) : (d.withBorderDirty v).screenDirty = d.screenDirty := rfl
@[simp] theorem withBorderDirty_borderDirty (d : Decoder) (v : Bool) : (d.withBorderDirty v).borderDirty = v := rfl
@[simp] theorem withBorderDirty_borderIndex (d : Decoder) (v : Bool) : (d.withBorderDirty v).borderIndex = d.borderIndex := rfl
@[simp] theorem withBorderDirty_currentPack (d : Decoder) (v : Bool) : (d.withBorderDirty v).currentPack = d.currentPack := rfl

@[simp] theorem withBorderIndex_pal (d : Decoder) (v : PaletteIndex) : (d.withBorderIndex v).pal = d.pal := rfl
@[simp] theorem withBorderIndex_vram (d : Decoder) (v : PaletteIndex) : (d.withBorderIndex v).vram = d.vram := rfl
@[simp] theorem withBorderIndex_dirty (d : Decoder) (v : PaletteIndex) : (d.withBorderIndex v).dirty = d.dirty := rfl
@[simp] theorem withBorderIndex_screenDirty (d : Decoder) (v : PaletteIndex) : (d.withBorderIndex v).screenDirty = d.screenDirty := rfl
@[simp] theorem withBorderIndex_borderDirty (d : Decoder) (v : PaletteIndex) : (d.withBorderIndex v).borderDirty = d.borderDirty := rfl
@[simp] theorem withBorderIndex_borderIndex (d : Decoder) (v : PaletteIndex) : (d.withBorderIndex v).borderIndex = v := rfl
@[simp] theorem withBorderIndex_currentPack (d : Decoder) (v : PaletteIndex) : (d.withBorderIndex v).currentPack = d.currentPack := rfl

@[simp] theorem withCurrentPack_pal (d : Decoder) (v : PackIndex) : (d.withCurrentPack v).pal = d.pal := rfl
@[simp] theorem withCurrentPack_vram (d : Decoder) (v : PackIndex) : (d.withCurrentPack v).vram = d.vram := rfl
@[simp] theorem withCurrentPack_dirty (d : Decoder) (v : PackIndex) : (d.withCurrentPack v).dirty = d.dirty := rfl
@[simp] theorem withCurrentPack_screenDirty (d : Decoder) (v : PackIndex) : (d.withCurrentPack v).screenDirty = d.screenDirty := rfl
@[simp] theorem withCurrentPack_borderDirty (d : Decoder) (v : PackIndex) : (d.withCurrentPack v).borderDirty = d.borderDirty := rfl
@[simp] theorem withCurrentPack_borderIndex (d : Decoder) (v : PackIndex) : (d.withCurrentPack v).borderIndex = d.borderIndex := rfl
@[simp] theorem withCurrentPack_currentPack (d : Decoder) (v : PackIndex) : (d.withCurrentPack v).currentPack = v := rfl

/-! ## Updates of the machine -/

@[simp] theorem withCore_core (s : State) (v : Decoder) : (s.withCore v).core = v := rfl
@[simp] theorem withCore_env_stream (s : State) (v : Decoder) : (s.withCore v).env.stream = s.env.stream := rfl
@[simp] theorem withCore_env_fb (s : State) (v : Decoder) : (s.withCore v).env.fb = s.env.fb := rfl
@[simp] theorem withCore_pending (s : State) (v : Decoder) : (s.withCore v).pending = s.pending := rfl
@[simp] theorem withCore_outputs (s : State) (v : Decoder) : (s.withCore v).outputs = s.outputs := rfl
@[simp] theorem withCore_env (s : State) (v : Decoder) : (s.withCore v).env = s.env := rfl

@[simp] theorem withStream_core (s : State) (v : PackStream) : (s.withStream v).core = s.core := rfl
@[simp] theorem withStream_env_stream (s : State) (v : PackStream) : (s.withStream v).env.stream = v := rfl
@[simp] theorem withStream_env_fb (s : State) (v : PackStream) : (s.withStream v).env.fb = s.env.fb := rfl
@[simp] theorem withStream_pending (s : State) (v : PackStream) : (s.withStream v).pending = s.pending := rfl
@[simp] theorem withStream_outputs (s : State) (v : PackStream) : (s.withStream v).outputs = s.outputs := rfl

@[simp] theorem withFb_core (s : State) (v : Memory Byte) : (s.withFb v).core = s.core := rfl
@[simp] theorem withFb_env_stream (s : State) (v : Memory Byte) : (s.withFb v).env.stream = s.env.stream := rfl
@[simp] theorem withFb_env_fb (s : State) (v : Memory Byte) : (s.withFb v).env.fb = v := rfl
@[simp] theorem withFb_pending (s : State) (v : Memory Byte) : (s.withFb v).pending = s.pending := rfl
@[simp] theorem withFb_outputs (s : State) (v : Memory Byte) : (s.withFb v).outputs = s.outputs := rfl

@[simp] theorem withPending_core (s : State) (v : List HostAction) : (s.withPending v).core = s.core := rfl
@[simp] theorem withPending_env_stream (s : State) (v : List HostAction) : (s.withPending v).env.stream = s.env.stream := rfl
@[simp] theorem withPending_env_fb (s : State) (v : List HostAction) : (s.withPending v).env.fb = s.env.fb := rfl
@[simp] theorem withPending_pending (s : State) (v : List HostAction) : (s.withPending v).pending = v := rfl
@[simp] theorem withPending_outputs (s : State) (v : List HostAction) : (s.withPending v).outputs = s.outputs := rfl
@[simp] theorem withPending_env (s : State) (v : List HostAction) : (s.withPending v).env = s.env := rfl

@[simp] theorem emit_core (s : State) (o : Output) : (s.emit o).core = s.core := rfl
@[simp] theorem emit_env_stream (s : State) (o : Output) : (s.emit o).env.stream = s.env.stream := rfl
@[simp] theorem emit_env_fb (s : State) (o : Output) : (s.emit o).env.fb = s.env.fb := rfl
@[simp] theorem emit_pending (s : State) (o : Output) : (s.emit o).pending = s.pending := rfl
@[simp] theorem emit_outputs (s : State) (o : Output) : (s.emit o).outputs = s.outputs ++ [o] := rfl
@[simp] theorem emit_env (s : State) (o : Output) : (s.emit o).env = s.env := rfl

/-! ## Writing one element -/

@[simp] theorem setColour_pal (d : Decoder) (i : PaletteIndex) (c : Colour) :
    (d.setColour i c).pal = d.pal.set i.toNat c i.isLt := rfl
@[simp] theorem setColour_vram (d : Decoder) (i : PaletteIndex) (c : Colour) : (d.setColour i c).vram = d.vram := rfl
@[simp] theorem setColour_dirty (d : Decoder) (i : PaletteIndex) (c : Colour) : (d.setColour i c).dirty = d.dirty := rfl
@[simp] theorem setColour_screenDirty (d : Decoder) (i : PaletteIndex) (c : Colour) :
    (d.setColour i c).screenDirty = d.screenDirty := rfl
@[simp] theorem setColour_borderDirty (d : Decoder) (i : PaletteIndex) (c : Colour) :
    (d.setColour i c).borderDirty = d.borderDirty := rfl
@[simp] theorem setColour_borderIndex (d : Decoder) (i : PaletteIndex) (c : Colour) :
    (d.setColour i c).borderIndex = d.borderIndex := rfl
@[simp] theorem setColour_currentPack (d : Decoder) (i : PaletteIndex) (c : Colour) :
    (d.setColour i c).currentPack = d.currentPack := rfl

/-- Reading the palette after a write of one entry. -/
theorem setColour_colour (d : Decoder) (i j : PaletteIndex) (c : Colour) :
    (d.setColour i c).colour j = if i = j then c else d.colour j := by
  simp [Decoder.colour, Vector.getElem_set, BitVec.toNat_inj]

/-- Palettes that hold the same colours are the same. -/
theorem pal_ext {d e : Decoder} (h : ∀ i, d.colour i = e.colour i) : d.pal = e.pal := by
  refine Vector.ext fun i hi => ?_
  have := h (BitVec.ofNat 4 i)
  simpa [Decoder.colour, Nat.mod_eq_of_lt hi] using this

/-- The palette by number and by index. -/
theorem pal_getElem (d : Decoder) (j : Nat) (h : j < 16) : d.pal[j] = d.colour (BitVec.ofNat 4 j) := by
  simp [Decoder.colour, Nat.mod_eq_of_lt h]

end Sys2Proof.Machine
end

