-- ==== Sys2Proof/Laws/Effect.lean ====
section
/-! SUPPORT. What one pack does to the core, said once: every meaning answers a next state that differs from the old one in the
core alone, and what each effect writes and leaves. -/

namespace Sys2Proof.Machine

/-- The effect of an instruction on the core. -/
def coreEffect : Instr → Decoder → Decoder
  | .memoryPreset c, d => memoryPreset c d
  | .borderPreset c, d => borderPreset c d
  | .copyFont f, d => fontWrite false f d
  | .scrollPreset fill h v, d => scroll false fill h v d
  | .scrollCopy fill h v, d => scroll true fill h v d
  | .loadClutLo colours, d => loadClut colours 0 d
  | .loadClutHi colours, d => loadClut colours 8 d
  | .xorFont f, d => fontWrite true f d
  | .skipInst _, d => d
  | .skipCmd _, d => d

@[simp] theorem coreEffect_memoryPreset (c : PaletteIndex) (d : Decoder) :
    coreEffect (.memoryPreset c) d = memoryPreset c d := rfl
@[simp] theorem coreEffect_borderPreset (c : PaletteIndex) (d : Decoder) :
    coreEffect (.borderPreset c) d = borderPreset c d := rfl
@[simp] theorem coreEffect_copyFont (f : FontOperands) (d : Decoder) :
    coreEffect (.copyFont f) d = fontWrite false f d := rfl
@[simp] theorem coreEffect_xorFont (f : FontOperands) (d : Decoder) :
    coreEffect (.xorFont f) d = fontWrite true f d := rfl
@[simp] theorem coreEffect_scrollPreset (fill : PaletteIndex) (h : HDir) (v : VDir) (d : Decoder) :
    coreEffect (.scrollPreset fill h v) d = scroll false fill h v d := rfl
@[simp] theorem coreEffect_scrollCopy (fill : PaletteIndex) (h : HDir) (v : VDir) (d : Decoder) :
    coreEffect (.scrollCopy fill h v) d = scroll true fill h v d := rfl
@[simp] theorem coreEffect_loadClutLo (cs : Vector Rgb4 8) (d : Decoder) :
    coreEffect (.loadClutLo cs) d = loadEntries cs.toList 0 d := rfl
@[simp] theorem coreEffect_loadClutHi (cs : Vector Rgb4 8) (d : Decoder) :
    coreEffect (.loadClutHi cs) d = loadEntries cs.toList 8 d := rfl
@[simp] theorem coreEffect_skipInst (inst : Symbol) (d : Decoder) : coreEffect (.skipInst inst) d = d := rfl
@[simp] theorem coreEffect_skipCmd (cmd : Symbol) (d : Decoder) : coreEffect (.skipCmd cmd) d = d := rfl

/-- Every meaning answers a next state, and changes the core alone. -/
theorem exec_eq (i : Instr) (s : State) : exec i s = .next (s.withCore (coreEffect i s.core)) := by
  cases i <;> rfl

theorem exec_next {i : Instr} {s t : State} (h : exec i s = .next t) : t = s.withCore (coreEffect i s.core) :=
  Host.Outcome.next.inj (h.symm.trans (exec_eq i s))

/-! ## Cells and flags -/

theorem setCell_cell (d : Decoder) (j k : Nat) (v : Cell) :
    (d.setCell j v).cell k = if k = j then v else d.cell k :=
  read_write vramUnlisted d.vram j k v

theorem markBlock_flag (d : Decoder) (x y k : Nat) :
    Memory.read flagUnlisted (markBlock x y d).dirty k = if k = y * 50 + x then true else Memory.read flagUnlisted d.dirty k :=
  read_write flagUnlisted d.dirty (y * 50 + x) k true

theorem clearBlock_flag (d : Decoder) (x y k : Nat) :
    Memory.read flagUnlisted (clearBlock x y d).dirty k = if k = y * 50 + x then false else Memory.read flagUnlisted d.dirty k :=
  read_write flagUnlisted d.dirty (y * 50 + x) k false

/-! ## Font writes -/

/-- The row writes change cells only. -/
theorem fontRows_frame (xor : Bool) (f : FontOperands) (rs : List (Fin 12)) (d : Decoder) :
    rs.foldl (fontRow xor f) d = d.withVram (rs.foldl (fontRow xor f) d).vram := by
  induction rs generalizing d with
  | nil => rfl
  | cons r rs ih => rw [List.foldl_cons, ih (fontRow xor f d r)]; rfl

/-- A block's cells are distinct. -/
theorem blockCell_inj {x y r r' : Nat} : blockCell x y r = blockCell x y r' ↔ r = r' := by
  unfold blockCell; omega

theorem blockCell_lt {x y r : Nat} (hx : x ≤ 49) (hy : y ≤ 17) (hr : r < 12) : blockCell x y r < 10800 := by
  unfold blockCell; omega

/-- What the row writes leave in each cell, the rows listed without repeats. -/
theorem fontRows_cell (xor : Bool) (f : FontOperands) (rs : List (Fin 12)) (hrs : rs.Nodup) (d : Decoder) (j : Nat) :
    (rs.foldl (fontRow xor f) d).cell j =
      match rs.find? fun r => j == blockCell f.x.toNat f.y.toNat r.val with
      | some r => if xor then d.cell j ^^^ cellVal f.rows[r] f.fg f.bg else cellVal f.rows[r] f.fg f.bg
      | none => d.cell j := by
  induction rs generalizing d with
  | nil => rfl
  | cons r rs ih =>
    have hrs' := List.nodup_cons.1 hrs
    rw [List.foldl_cons, ih hrs'.2]
    have hstep : (fontRow xor f d r).cell j = if j = blockCell f.x.toNat f.y.toNat r.val then
        (if xor then d.cell j ^^^ cellVal f.rows[r] f.fg f.bg else cellVal f.rows[r] f.fg f.bg) else d.cell j := by
      simp only [fontRow, setCell_cell]
      split
      · subst j; rfl
      · rfl
    by_cases hj : j = blockCell f.x.toNat f.y.toNat r.val
    · have hnone : rs.find? (fun r => j == blockCell f.x.toNat f.y.toNat r.val) = none := by
        refine List.find?_eq_none.2 fun r' hr' => ?_
        simp only [hj, beq_iff_eq, blockCell_inj]
        intro h
        exact hrs'.1 (Fin.ext h ▸ hr')
      rw [hnone, List.find?_cons_of_pos (by simpa using hj)]
      rw [hstep, if_pos hj]
    · rw [List.find?_cons_of_neg (by simpa using hj)]
      simp only [hstep, hj, if_false]

/-- The cell of row `r` after a font write that is not dropped (R143). -/
theorem fontBlock_cell_row (xor : Bool) (f : FontOperands) (d : Decoder) (r : Fin 12) :
    (fontBlock xor f d).cell (blockCell f.x.toNat f.y.toNat r.val) =
      if xor then d.cell (blockCell f.x.toNat f.y.toNat r.val) ^^^ cellVal f.rows[r] f.fg f.bg
      else cellVal f.rows[r] f.fg f.bg := by
  have h := fontRows_cell xor f (List.finRange 12) (List.nodup_finRange 12) d (blockCell f.x.toNat f.y.toNat r.val)
  have hfind : (List.finRange 12).find? (fun r' => blockCell f.x.toNat f.y.toNat r.val == blockCell f.x.toNat f.y.toNat r'.val)
      = some r := by
    simp only [beq_eq_decide, blockCell_inj]
    clear h
    revert r; decide
  rw [hfind] at h
  exact h

/-- The cells outside the block keep their values (R143). -/
theorem fontBlock_cell_other (xor : Bool) (f : FontOperands) (d : Decoder) (j : Nat)
    (hj : ∀ r < 12, j ≠ blockCell f.x.toNat f.y.toNat r) : (fontBlock xor f d).cell j = d.cell j := by
  have h := fontRows_cell xor f (List.finRange 12) (List.nodup_finRange 12) d j
  have hfind : (List.finRange 12).find? (fun r => j == blockCell f.x.toNat f.y.toNat r.val) = none :=
    List.find?_eq_none.2 fun r _ => by simpa using hj r.val r.isLt
  rw [hfind] at h
  exact h

/-- A font write that is not dropped changes cells and one block flag (R144). -/
theorem fontBlock_frame (xor : Bool) (f : FontOperands) (d : Decoder) :
    fontBlock xor f d = (d.withVram (fontBlock xor f d).vram).withDirty (Memory.write flagUnlisted d.dirty (f.y.toNat * 50 + f.x.toNat) true) := by
  unfold fontBlock
  rw [fontRows_frame]; rfl

@[simp] theorem fontBlock_pal (xor : Bool) (f : FontOperands) (d : Decoder) : (fontBlock xor f d).pal = d.pal := by
  rw [fontBlock_frame, withDirty_pal, withVram_pal]
@[simp] theorem fontBlock_screenDirty (xor : Bool) (f : FontOperands) (d : Decoder) : (fontBlock xor f d).screenDirty = d.screenDirty := by
  rw [fontBlock_frame, withDirty_screenDirty, withVram_screenDirty]
@[simp] theorem fontBlock_borderDirty (xor : Bool) (f : FontOperands) (d : Decoder) : (fontBlock xor f d).borderDirty = d.borderDirty := by
  rw [fontBlock_frame, withDirty_borderDirty, withVram_borderDirty]
@[simp] theorem fontBlock_borderIndex (xor : Bool) (f : FontOperands) (d : Decoder) : (fontBlock xor f d).borderIndex = d.borderIndex := by
  rw [fontBlock_frame, withDirty_borderIndex, withVram_borderIndex]
@[simp] theorem fontBlock_currentPack (xor : Bool) (f : FontOperands) (d : Decoder) : (fontBlock xor f d).currentPack = d.currentPack := by
  rw [fontBlock_frame, withDirty_currentPack, withVram_currentPack]
theorem fontBlock_dirty (xor : Bool) (f : FontOperands) (d : Decoder) :
    (fontBlock xor f d).dirty = Memory.write flagUnlisted d.dirty (f.y.toNat * 50 + f.x.toNat) true := by
  rw [fontBlock_frame, withDirty_dirty]

theorem fontWrite_applied (xor : Bool) (f : FontOperands) (d : Decoder) (hc : f.ch.toNat ≤ 1) (hx : f.x.toNat ≤ 49)
    (hy : f.y.toNat ≤ 17) : fontWrite xor f d = fontBlock xor f d := by
  simp [fontWrite, (channelActive_iff f.ch).2 hc, (inRange_iff f.x f.y).2 ⟨hx, hy⟩]

theorem fontWrite_dropped (xor : Bool) (f : FontOperands) (d : Decoder)
    (h : 2 ≤ f.ch.toNat ∨ 50 ≤ f.x.toNat ∨ 18 ≤ f.y.toNat) : fontWrite xor f d = d := by
  unfold fontWrite
  split
  · rfl
  · rename_i hc
    have hc' := (channelActive_iff f.ch).1 (by simpa using hc)
    split
    · rfl
    · rename_i hr
      have hr' := (inRange_iff f.x f.y).1 (by simpa using hr)
      omega

/-- A font write leaves the core as it was or writes its block. -/
theorem fontWrite_cases (xor : Bool) (f : FontOperands) (d : Decoder) :
    fontWrite xor f d = d ∨ f.ch.toNat ≤ 1 ∧ f.x.toNat ≤ 49 ∧ f.y.toNat ≤ 17 ∧ fontWrite xor f d = fontBlock xor f d := by
  by_cases h : f.ch.toNat ≤ 1 ∧ f.x.toNat ≤ 49 ∧ f.y.toNat ≤ 17
  · exact .inr ⟨h.1, h.2.1, h.2.2, fontWrite_applied xor f d h.1 h.2.1 h.2.2⟩
  · exact .inl (fontWrite_dropped xor f d (by omega))

@[simp] theorem fontWrite_pal (xor : Bool) (f : FontOperands) (d : Decoder) : (fontWrite xor f d).pal = d.pal := by
  rcases fontWrite_cases xor f d with e | ⟨_, _, _, e⟩
  · rw [e]
  · rw [e, fontBlock_pal]
@[simp] theorem fontWrite_screenDirty (xor : Bool) (f : FontOperands) (d : Decoder) : (fontWrite xor f d).screenDirty = d.screenDirty := by
  rcases fontWrite_cases xor f d with e | ⟨_, _, _, e⟩
  · rw [e]
  · rw [e, fontBlock_screenDirty]
@[simp] theorem fontWrite_borderDirty (xor : Bool) (f : FontOperands) (d : Decoder) : (fontWrite xor f d).borderDirty = d.borderDirty := by
  rcases fontWrite_cases xor f d with e | ⟨_, _, _, e⟩
  · rw [e]
  · rw [e, fontBlock_borderDirty]
@[simp] theorem fontWrite_borderIndex (xor : Bool) (f : FontOperands) (d : Decoder) : (fontWrite xor f d).borderIndex = d.borderIndex := by
  rcases fontWrite_cases xor f d with e | ⟨_, _, _, e⟩
  · rw [e]
  · rw [e, fontBlock_borderIndex]
@[simp] theorem fontWrite_currentPack (xor : Bool) (f : FontOperands) (d : Decoder) : (fontWrite xor f d).currentPack = d.currentPack := by
  rcases fontWrite_cases xor f d with e | ⟨_, _, _, e⟩
  · rw [e]
  · rw [e, fontBlock_currentPack]

/-! ## CLUT loads -/

/-- The palette after one entry of a load. -/
theorem loadEntry_colour (j i : PaletteIndex) (c : Colour) (d : Decoder) :
    (loadEntry j c d).colour i = if j = i then c else d.colour i := by
  unfold loadEntry
  split
  · split
    · subst i; assumption
    · rfl
  · exact setColour_colour d j i c

/-- The flags after one entry of a load (R127). -/
theorem loadEntry_screenDirty (j : PaletteIndex) (c : Colour) (d : Decoder) :
    (loadEntry j c d).screenDirty = (d.screenDirty || d.colour j != c) := by
  unfold loadEntry; split <;> simp [*, markBorderIf, markScreen]

theorem loadEntry_borderDirty (j : PaletteIndex) (c : Colour) (d : Decoder) :
    (loadEntry j c d).borderDirty = (d.borderDirty || (d.colour j != c && j == d.borderIndex)) := by
  unfold loadEntry
  split
  · simp [*]
  · have hne : (d.colour j != c) = true := by simpa using ‹¬ d.colour j = c›
    rw [hne]; rfl

/-- One entry of a load changes the palette and the two flags alone. -/
theorem loadEntry_frame (j : PaletteIndex) (c : Colour) (d : Decoder) :
    loadEntry j c d = ((d.withPal (loadEntry j c d).pal).withScreenDirty (loadEntry j c d).screenDirty).withBorderDirty
      (loadEntry j c d).borderDirty := by
  unfold loadEntry; split <;> rfl

theorem loadEntries_frame (cs : List Rgb4) (j : PaletteIndex) (d : Decoder) :
    loadEntries cs j d = ((d.withPal (loadEntries cs j d).pal).withScreenDirty (loadEntries cs j d).screenDirty).withBorderDirty
      (loadEntries cs j d).borderDirty := by
  induction cs generalizing j d with
  | nil => rfl
  | cons c cs ih =>
    simp only [loadEntries]
    rw [ih (j + 1) (loadEntry j (colourOf c) d), loadEntry_frame]; rfl

@[simp] theorem loadEntries_borderIndex (cs : List Rgb4) (j : PaletteIndex) (d : Decoder) :
    (loadEntries cs j d).borderIndex = d.borderIndex := by rw [loadEntries_frame]; rfl
@[simp] theorem loadEntries_vram (cs : List Rgb4) (j : PaletteIndex) (d : Decoder) :
    (loadEntries cs j d).vram = d.vram := by rw [loadEntries_frame]; rfl
@[simp] theorem loadEntries_dirty (cs : List Rgb4) (j : PaletteIndex) (d : Decoder) :
    (loadEntries cs j d).dirty = d.dirty := by rw [loadEntries_frame]; rfl
@[simp] theorem loadEntries_currentPack (cs : List Rgb4) (j : PaletteIndex) (d : Decoder) :
    (loadEntries cs j d).currentPack = d.currentPack := by rw [loadEntries_frame]; rfl

/-- Where entry `i` of a load from `j` on stands: its position in the list, if it has one. -/
theorem loadEntries_colour (cs : List Rgb4) (j i : PaletteIndex) (d : Decoder) (h : j.toNat + cs.length ≤ 16) :
    (loadEntries cs j d).colour i =
      if hi : j.toNat ≤ i.toNat ∧ i.toNat < j.toNat + cs.length then colourOf (cs[i.toNat - j.toNat]'(by omega))
      else d.colour i := by
  induction cs generalizing j d with
  | nil => rw [dif_neg (by simp)]; rfl
  | cons c cs ih =>
    simp only [loadEntries]
    cases cs with
    | nil =>
      simp only [loadEntries, loadEntry_colour, List.length_singleton]
      by_cases hj : j = i
      · subst hj; simp
      · have : j.toNat ≠ i.toNat := fun e => hj (BitVec.eq_of_toNat_eq e)
        rw [if_neg hj, dif_neg (by omega)]
    | cons c' cs =>
      have hj1 : (j + 1).toNat = j.toNat + 1 := by
        simp only [List.length_cons] at h; rw [BitVec.toNat_add]; simp; omega
      rw [ih (j + 1) (loadEntry j (colourOf c) d) (by simp only [List.length_cons] at h ⊢; omega), loadEntry_colour]
      simp only [hj1, List.length_cons]
      by_cases hj : j = i
      · subst hj; simp
      · have hne : j.toNat ≠ i.toNat := fun e => hj (BitVec.eq_of_toNat_eq e)
        rw [if_neg hj]
        by_cases hi : j.toNat + 1 ≤ i.toNat ∧ i.toNat < j.toNat + 1 + (cs.length + 1)
        · rw [dif_pos hi, dif_pos (by omega)]
          congr 1
          have : i.toNat - j.toNat = (i.toNat - (j.toNat + 1)) + 1 := by omega
          simp [this]
        · rw [dif_neg hi, dif_neg (by omega)]

/-- A load sets `screen_dirty` exactly when some entry it carries differs (R127). -/
theorem loadEntries_screenDirty (cs : List Rgb4) (j : PaletteIndex) (d : Decoder) (h : j.toNat + cs.length ≤ 16) :
    (loadEntries cs j d).screenDirty = true ↔
      d.screenDirty = true ∨ ∃ i : PaletteIndex, (loadEntries cs j d).colour i ≠ d.colour i := by
  induction cs generalizing j d with
  | nil => simp [loadEntries]
  | cons c cs ih =>
    simp only [loadEntries]
    cases cs with
    | nil =>
      simp only [loadEntries, loadEntry_screenDirty, Bool.or_eq_true, bne_iff_ne, ne_eq]
      refine or_congr_right ⟨fun hc => ⟨j, ?_⟩, fun ⟨i, hi⟩ => ?_⟩
      · rw [loadEntry_colour, if_pos rfl]; exact fun e => hc e.symm
      · rw [loadEntry_colour] at hi
        split at hi
        · subst j; exact fun e => hi e.symm
        · exact absurd rfl hi
    | cons c' cs =>
      have hj1 : (j + 1).toNat = j.toNat + 1 := by
        simp only [List.length_cons] at h; rw [BitVec.toNat_add]; simp; omega
      have hlen : (j + 1).toNat + (c' :: cs).length ≤ 16 := by simp only [List.length_cons] at h ⊢; omega
      rw [ih (j + 1) (loadEntry j (colourOf c) d) hlen, loadEntry_screenDirty, Bool.or_eq_true, bne_iff_ne, or_assoc]
      refine or_congr_right ?_
      have hj : ∀ d' : Decoder, (loadEntries (c' :: cs) (j + 1) d').colour j = d'.colour j := by
        intro d'; rw [loadEntries_colour _ _ _ _ hlen, dif_neg (by omega)]
      have hother : ∀ i : PaletteIndex, i ≠ j →
          (loadEntry j (colourOf c) d).colour i = d.colour i := by
        intro i hi; rw [loadEntry_colour, if_neg (Ne.symm hi)]
      constructor
      · rintro (hc | ⟨i, hi⟩)
        · exact ⟨j, by rw [hj, loadEntry_colour, if_pos rfl]; exact fun e => hc e.symm⟩
        · by_cases hij : i = j
          · subst hij; exact absurd (hj _) hi
          · exact ⟨i, by rw [← hother i hij]; exact hi⟩
      · rintro ⟨i, hi⟩
        by_cases hij : i = j
        · subst hij
          rw [hj, loadEntry_colour, if_pos rfl] at hi
          exact .inl fun e => hi e.symm
        · exact .inr ⟨i, by rw [hother i hij]; exact hi⟩

/-- A load sets `border_dirty` exactly when it changes the border's entry (R127). -/
theorem loadEntries_borderDirty (cs : List Rgb4) (j : PaletteIndex) (d : Decoder) (h : j.toNat + cs.length ≤ 16) :
    (loadEntries cs j d).borderDirty = true ↔
      d.borderDirty = true ∨ (loadEntries cs j d).colour d.borderIndex ≠ d.colour d.borderIndex := by
  induction cs generalizing j d with
  | nil => simp [loadEntries]
  | cons c cs ih =>
    simp only [loadEntries]
    cases cs with
    | nil =>
      simp only [loadEntries, loadEntry_borderDirty, loadEntry_colour]
      by_cases hb : j = d.borderIndex
      · subst hb; simp [ne_comm]
      · simp [hb]
    | cons c' cs =>
      have hj1 : (j + 1).toNat = j.toNat + 1 := by
        simp only [List.length_cons] at h; rw [BitVec.toNat_add]; simp; omega
      have hlen : (j + 1).toNat + (c' :: cs).length ≤ 16 := by simp only [List.length_cons] at h ⊢; omega
      have hbi : (loadEntry j (colourOf c) d).borderIndex = d.borderIndex := by rw [loadEntry_frame]; rfl
      rw [ih (j + 1) (loadEntry j (colourOf c) d) hlen, loadEntry_borderDirty, hbi]
      by_cases hb : j = d.borderIndex
      · have : (loadEntries (c' :: cs) (j + 1) (loadEntry j (colourOf c) d)).colour d.borderIndex
            = (loadEntry j (colourOf c) d).colour d.borderIndex := by
          rw [loadEntries_colour _ _ _ _ hlen, dif_neg (by rw [← hb]; omega)]
        rw [this, loadEntry_colour, if_pos hb, ← hb]
        simp [ne_comm]
      · simp [hb, loadEntry_colour]

/-! ## Presets and scrolls -/

/-- What MEMORY_PRESET writes (R120). -/
theorem memoryPreset_eq (c : PaletteIndex) (d : Decoder) :
    memoryPreset c d = (d.withVram (Memory.tabulate vramUnlisted 10800 fun _ => rep6 c)).withScreenDirty true := by
  unfold memoryPreset markScreen; rfl

/-- What a scroll writes (R182, R187). -/
theorem scroll_eq (copy : Bool) (fill : PaletteIndex) (h : HDir) (v : VDir) (d : Decoder) :
    scroll copy fill h v d =
      (d.withVram (vshift v copy (rep6 fill) (hshift h copy (rep6 fill) d.vram))).withScreenDirty true := by
  unfold scroll markScreen; rfl

/-- What BORDER_PRESET writes (R122). -/
theorem borderPreset_eq (c : PaletteIndex) (d : Decoder) :
    borderPreset c d =
      (d.withBorderDirty (d.borderDirty || d.colour c != d.colour d.borderIndex)).withBorderIndex c := by
  unfold borderPreset markBorderIf; rfl

@[simp] theorem memoryPreset_pal (c : PaletteIndex) (d : Decoder) : (memoryPreset c d).pal = d.pal := by
  rw [memoryPreset_eq, withScreenDirty_pal, withVram_pal]
@[simp] theorem memoryPreset_dirty (c : PaletteIndex) (d : Decoder) : (memoryPreset c d).dirty = d.dirty := by
  rw [memoryPreset_eq, withScreenDirty_dirty, withVram_dirty]
@[simp] theorem memoryPreset_borderDirty (c : PaletteIndex) (d : Decoder) : (memoryPreset c d).borderDirty = d.borderDirty := by
  rw [memoryPreset_eq, withScreenDirty_borderDirty, withVram_borderDirty]
@[simp] theorem memoryPreset_borderIndex (c : PaletteIndex) (d : Decoder) : (memoryPreset c d).borderIndex = d.borderIndex := by
  rw [memoryPreset_eq, withScreenDirty_borderIndex, withVram_borderIndex]
@[simp] theorem memoryPreset_currentPack (c : PaletteIndex) (d : Decoder) : (memoryPreset c d).currentPack = d.currentPack := by
  rw [memoryPreset_eq, withScreenDirty_currentPack, withVram_currentPack]
@[simp] theorem memoryPreset_screenDirty (c : PaletteIndex) (d : Decoder) : (memoryPreset c d).screenDirty = true := by
  rw [memoryPreset_eq, withScreenDirty_screenDirty]
@[simp] theorem memoryPreset_vram (c : PaletteIndex) (d : Decoder) :
    (memoryPreset c d).vram = Memory.tabulate vramUnlisted 10800 fun _ => rep6 c := by
  rw [memoryPreset_eq, withScreenDirty_vram, withVram_vram]

@[simp] theorem scroll_pal (copy : Bool) (fill : PaletteIndex) (h : HDir) (v : VDir) (d : Decoder) :
    (scroll copy fill h v d).pal = d.pal := by
  rw [scroll_eq, withScreenDirty_pal, withVram_pal]
@[simp] theorem scroll_dirty (copy : Bool) (fill : PaletteIndex) (h : HDir) (v : VDir) (d : Decoder) :
    (scroll copy fill h v d).dirty = d.dirty := by
  rw [scroll_eq, withScreenDirty_dirty, withVram_dirty]
@[simp] theorem scroll_borderDirty (copy : Bool) (fill : PaletteIndex) (h : HDir) (v : VDir) (d : Decoder) :
    (scroll copy fill h v d).borderDirty = d.borderDirty := by
  rw [scroll_eq, withScreenDirty_borderDirty, withVram_borderDirty]
@[simp] theorem scroll_borderIndex (copy : Bool) (fill : PaletteIndex) (h : HDir) (v : VDir) (d : Decoder) :
    (scroll copy fill h v d).borderIndex = d.borderIndex := by
  rw [scroll_eq, withScreenDirty_borderIndex, withVram_borderIndex]
@[simp] theorem scroll_currentPack (copy : Bool) (fill : PaletteIndex) (h : HDir) (v : VDir) (d : Decoder) :
    (scroll copy fill h v d).currentPack = d.currentPack := by
  rw [scroll_eq, withScreenDirty_currentPack, withVram_currentPack]
@[simp] theorem scroll_screenDirty (copy : Bool) (fill : PaletteIndex) (h : HDir) (v : VDir) (d : Decoder) :
    (scroll copy fill h v d).screenDirty = true := by
  rw [scroll_eq, withScreenDirty_screenDirty]
@[simp] theorem scroll_vram (copy : Bool) (fill : PaletteIndex) (h : HDir) (v : VDir) (d : Decoder) :
    (scroll copy fill h v d).vram = vshift v copy (rep6 fill) (hshift h copy (rep6 fill) d.vram) := by
  rw [scroll_eq, withScreenDirty_vram, withVram_vram]

@[simp] theorem borderPreset_pal (c : PaletteIndex) (d : Decoder) : (borderPreset c d).pal = d.pal := by
  rw [borderPreset_eq, withBorderIndex_pal, withBorderDirty_pal]
@[simp] theorem borderPreset_vram (c : PaletteIndex) (d : Decoder) : (borderPreset c d).vram = d.vram := by
  rw [borderPreset_eq, withBorderIndex_vram, withBorderDirty_vram]
@[simp] theorem borderPreset_dirty (c : PaletteIndex) (d : Decoder) : (borderPreset c d).dirty = d.dirty := by
  rw [borderPreset_eq, withBorderIndex_dirty, withBorderDirty_dirty]
@[simp] theorem borderPreset_screenDirty (c : PaletteIndex) (d : Decoder) : (borderPreset c d).screenDirty = d.screenDirty := by
  rw [borderPreset_eq, withBorderIndex_screenDirty, withBorderDirty_screenDirty]
@[simp] theorem borderPreset_currentPack (c : PaletteIndex) (d : Decoder) : (borderPreset c d).currentPack = d.currentPack := by
  rw [borderPreset_eq, withBorderIndex_currentPack, withBorderDirty_currentPack]
@[simp] theorem borderPreset_borderIndex (c : PaletteIndex) (d : Decoder) : (borderPreset c d).borderIndex = c := by
  rw [borderPreset_eq, withBorderIndex_borderIndex]
theorem borderPreset_borderDirty (c : PaletteIndex) (d : Decoder) :
    (borderPreset c d).borderDirty = (d.borderDirty || d.colour c != d.colour d.borderIndex) := by
  rw [borderPreset_eq, withBorderIndex_borderDirty, withBorderDirty_borderDirty]

@[simp] theorem hshift_none (copy : Bool) (fill : Cell) (m : Memory Cell) : hshift .none copy fill m = m := by
  simp only [hshift]
@[simp] theorem hshift_h3 (copy : Bool) (fill : Cell) (m : Memory Cell) : hshift .h3 copy fill m = m := by
  simp only [hshift]
@[simp] theorem hshift_right (copy : Bool) (fill : Cell) (m : Memory Cell) :
    hshift .right copy fill m = hshiftRight copy fill m := by simp only [hshift]
@[simp] theorem hshift_left (copy : Bool) (fill : Cell) (m : Memory Cell) :
    hshift .left copy fill m = hshiftLeft copy fill m := by simp only [hshift]
@[simp] theorem vshift_none (copy : Bool) (fill : Cell) (m : Memory Cell) : vshift .none copy fill m = m := by
  simp only [vshift]
@[simp] theorem vshift_v3 (copy : Bool) (fill : Cell) (m : Memory Cell) : vshift .v3 copy fill m = m := by
  simp only [vshift]
@[simp] theorem vshift_down (copy : Bool) (fill : Cell) (m : Memory Cell) :
    vshift .down copy fill m = vshiftDown copy fill m := by simp only [vshift]
@[simp] theorem vshift_up (copy : Bool) (fill : Cell) (m : Memory Cell) :
    vshift .up copy fill m = vshiftUp copy fill m := by simp only [vshift]

/-- Reading an array given cell by cell. -/
theorem cellAt_vramOf (f : Nat → Nat → Cell) (x Y : Nat) (hx : x < 50) (hY : Y < 216) :
    cellAt (vramOf f) x Y = f x Y := by
  unfold cellAt vramOf cellIdx
  rw [read_tabulate, if_pos (by omega)]
  congr 1 <;> omega

theorem cellAt_hshiftRight (copy : Bool) (fill : Cell) (m : Memory Cell) (x Y : Nat) (hx : x < 50) (hY : Y < 216) :
    cellAt (hshiftRight copy fill m) x Y =
      if x = 0 then (if copy then cellAt m 49 Y else fill) else cellAt m (x - 1) Y := by
  unfold hshiftRight; rw [cellAt_vramOf _ _ _ hx hY]

theorem cellAt_hshiftLeft (copy : Bool) (fill : Cell) (m : Memory Cell) (x Y : Nat) (hx : x < 50) (hY : Y < 216) :
    cellAt (hshiftLeft copy fill m) x Y =
      if x = 49 then (if copy then cellAt m 0 Y else fill) else cellAt m (x + 1) Y := by
  unfold hshiftLeft; rw [cellAt_vramOf _ _ _ hx hY]

theorem cellAt_vshiftDown (copy : Bool) (fill : Cell) (m : Memory Cell) (x Y : Nat) (hx : x < 50) (hY : Y < 216) :
    cellAt (vshiftDown copy fill m) x Y =
      if Y < 12 then (if copy then cellAt m x (Y + 204) else fill) else cellAt m x (Y - 12) := by
  unfold vshiftDown; rw [cellAt_vramOf _ _ _ hx hY]

theorem cellAt_vshiftUp (copy : Bool) (fill : Cell) (m : Memory Cell) (x Y : Nat) (hx : x < 50) (hY : Y < 216) :
    cellAt (vshiftUp copy fill m) x Y =
      if 204 ≤ Y then (if copy then cellAt m x (Y - 204) else fill) else cellAt m x (Y + 12) := by
  unfold vshiftUp; rw [cellAt_vramOf _ _ _ hx hY]

/-! ## The canonical form -/

/-- The memories of the core are in canonical form. -/
def CoreCanonical (d : Decoder) : Prop :=
  Memory.wf 10800 (some vramUnlisted) d.vram = true ∧ Memory.wf 900 (some flagUnlisted) d.dirty = true

theorem vramOf_wf (f : Nat → Nat → Cell) : Memory.wf 10800 (some vramUnlisted) (vramOf f) = true :=
  tabulate_wf vramUnlisted 10800 _

theorem hshift_wf {h : HDir} {copy : Bool} {fill : Cell} {m : Memory Cell} (hm : Memory.wf 10800 (some vramUnlisted) m = true) :
    Memory.wf 10800 (some vramUnlisted) (hshift h copy fill m) = true := by
  cases h
  · rw [hshift_none]; exact hm
  · rw [hshift_right]; exact vramOf_wf _
  · rw [hshift_left]; exact vramOf_wf _
  · rw [hshift_h3]; exact hm

theorem vshift_wf {v : VDir} {copy : Bool} {fill : Cell} {m : Memory Cell} (hm : Memory.wf 10800 (some vramUnlisted) m = true) :
    Memory.wf 10800 (some vramUnlisted) (vshift v copy fill m) = true := by
  cases v
  · rw [vshift_none]; exact hm
  · rw [vshift_down]; exact vramOf_wf _
  · rw [vshift_up]; exact vramOf_wf _
  · rw [vshift_v3]; exact hm

theorem fontBlock_canonical {xor : Bool} {f : FontOperands} {d : Decoder} (h : CoreCanonical d) (hx : f.x.toNat ≤ 49)
    (hy : f.y.toNat ≤ 17) : CoreCanonical (fontBlock xor f d) := by
  have hrows : ∀ (rs : List (Fin 12)) (d : Decoder), Memory.wf 10800 (some vramUnlisted) d.vram = true →
      Memory.wf 10800 (some vramUnlisted) (rs.foldl (fontRow xor f) d).vram = true := by
    intro rs
    induction rs with
    | nil => exact fun d hd => hd
    | cons r rs ih =>
      intro d hd
      exact ih (fontRow xor f d r) (write_wf (u := vramUnlisted) (m := d.vram) hd (blockCell_lt hx hy r.isLt))
  refine ⟨hrows _ _ h.1, ?_⟩
  rw [fontBlock_frame]
  exact write_wf (u := flagUnlisted) (m := d.dirty) (a := f.y.toNat * 50 + f.x.toNat) (v := true) h.2 (by omega)

/-- Every pack keeps the core's memories in canonical form. -/
theorem coreEffect_canonical (i : Instr) {d : Decoder} (h : CoreCanonical d) : CoreCanonical (coreEffect i d) := by
  have hfont : ∀ xor f, CoreCanonical (fontWrite xor f d) := by
    intro xor f
    rcases fontWrite_cases xor f d with e | ⟨_, hx, hy, e⟩
    · rw [e]; exact h
    · rw [e]; exact fontBlock_canonical h hx hy
  have hclut : ∀ cs j, CoreCanonical (loadEntries cs j d) := fun cs j => ⟨by simpa using h.1, by simpa using h.2⟩
  cases i with
  | memoryPreset c => rw [coreEffect_memoryPreset, memoryPreset_eq]; exact ⟨by simpa using tabulate_wf vramUnlisted 10800 fun _ => rep6 c, by simpa using h.2⟩
  | borderPreset c => rw [coreEffect_borderPreset, borderPreset_eq]; exact h
  | copyFont f => exact hfont false f
  | scrollPreset fill hd vd => rw [coreEffect_scrollPreset, scroll_eq]; exact ⟨by simpa using vshift_wf (hshift_wf h.1), by simpa using h.2⟩
  | scrollCopy fill hd vd => rw [coreEffect_scrollCopy, scroll_eq]; exact ⟨by simpa using vshift_wf (hshift_wf h.1), by simpa using h.2⟩
  | loadClutLo cs => exact hclut cs.toList 0
  | loadClutHi cs => exact hclut cs.toList 8
  | xorFont f => exact hfont true f
  | skipInst _ => exact h
  | skipCmd _ => exact h

theorem reset_canonical : CoreCanonical Decoder.reset := ⟨wf_nil _ _, wf_nil _ _⟩

/-! ## The cursor -/

/-- No pack moves the cursor (40_decoder_dispatch.md R106). -/
theorem coreEffect_currentPack (i : Instr) (d : Decoder) : (coreEffect i d).currentPack = d.currentPack := by
  have hfont : ∀ xor f, (fontWrite xor f d).currentPack = d.currentPack := by
    intro xor f
    rcases fontWrite_cases xor f d with e | ⟨_, _, _, e⟩
    · rw [e]
    · rw [e, fontBlock_frame, withDirty_currentPack, withVram_currentPack]
  cases i with
  | memoryPreset c => rw [coreEffect_memoryPreset, memoryPreset_eq, withScreenDirty_currentPack, withVram_currentPack]
  | borderPreset c => rw [coreEffect_borderPreset, borderPreset_eq]; rfl
  | copyFont f => exact hfont false f
  | scrollPreset fill hd vd => rw [coreEffect_scrollPreset, scroll_eq, withScreenDirty_currentPack, withVram_currentPack]
  | scrollCopy fill hd vd => rw [coreEffect_scrollCopy, scroll_eq, withScreenDirty_currentPack, withVram_currentPack]
  | loadClutLo cs => exact loadEntries_currentPack cs.toList 0 d
  | loadClutHi cs => exact loadEntries_currentPack cs.toList 8 d
  | xorFont f => exact hfont true f
  | skipInst _ => rfl
  | skipCmd _ => rfl

theorem fontWrite_withCurrentPack (xor : Bool) (f : FontOperands) (d : Decoder) (p : PackIndex) :
    fontWrite xor f (d.withCurrentPack p) = (fontWrite xor f d).withCurrentPack p := by
  have hr : ∀ (rs : List (Fin 12)) (d : Decoder),
      rs.foldl (fontRow xor f) (d.withCurrentPack p) = (rs.foldl (fontRow xor f) d).withCurrentPack p := by
    intro rs
    induction rs with
    | nil => intro d; rfl
    | cons r rs ih => intro d; rw [List.foldl_cons, List.foldl_cons, ← ih]; rfl
  unfold fontWrite fontBlock
  rw [hr]
  split
  · rfl
  · split
    · rfl
    · rfl

theorem loadEntries_withCurrentPack (cs : List Rgb4) (j : PaletteIndex) (d : Decoder) (p : PackIndex) :
    loadEntries cs j (d.withCurrentPack p) = (loadEntries cs j d).withCurrentPack p := by
  induction cs generalizing j d with
  | nil => rfl
  | cons c cs ih =>
    rw [loadEntries, loadEntries, ← ih]
    congr 1
    unfold loadEntry
    have : ((d.withCurrentPack p).colour j = colourOf c) ↔ (d.colour j = colourOf c) := Iff.rfl
    by_cases h : d.colour j = colourOf c
    · rw [if_pos h, if_pos (this.2 h)]
    · rw [if_neg h, if_neg (mt this.1 h)]; rfl

/-- A pack takes no notice of the cursor (40_decoder_dispatch.md R106). -/
theorem coreEffect_withCurrentPack (i : Instr) (d : Decoder) (p : PackIndex) :
    coreEffect i (d.withCurrentPack p) = (coreEffect i d).withCurrentPack p := by
  cases i with
  | memoryPreset c =>
    simp only [coreEffect_memoryPreset, memoryPreset_eq]
    generalize (Memory.tabulate vramUnlisted 10800 fun _ => rep6 c) = M
    rfl
  | borderPreset c => rfl
  | copyFont f => exact fontWrite_withCurrentPack _ _ _ _
  | xorFont f => exact fontWrite_withCurrentPack _ _ _ _
  | scrollPreset fill h v =>
    simp only [coreEffect_scrollPreset, scroll_eq, withCurrentPack_vram]
    generalize vshift _ _ _ _ = M
    rfl
  | scrollCopy fill h v =>
    simp only [coreEffect_scrollCopy, scroll_eq, withCurrentPack_vram]
    generalize vshift _ _ _ _ = M
    rfl
  | loadClutLo cs => exact loadEntries_withCurrentPack _ _ _ _
  | loadClutHi cs => exact loadEntries_withCurrentPack _ _ _ _
  | skipInst _ => rfl
  | skipCmd _ => rfl

end Sys2Proof.Machine
end

