-- ==== Sys2Proof/Laws/PerInstr.lean ====
section
/-! SUPPORT. Statements about every instruction, one lemma per constructor: the bytes of the canonical encoding (30_encoding.md R72, R73,
R88). -/

namespace Sys2Proof

/-- Bits 7:6 of every byte are 0, and so is every unused byte. -/
def CanonicalPack (P : Pack) : Prop :=
  ∀ (n : Nat) (h : n < 24), P[n].toNat < 64 ∧ (n = 2 ∨ n = 3 ∨ 20 ≤ n → P[n] = 0#8)

theorem byteOf_lt (v : Symbol) : (byteOf v).toNat < 64 := by revert v; decide

theorem packOf_canonical (cmd inst : Symbol) (data : Vector Symbol 16) : CanonicalPack (packOf cmd inst data) := by
  intro n h
  refine ⟨?_, packOf_unused cmd inst data n h⟩
  by_cases h0 : n = 0
  · subst h0
    have e : (packOf cmd inst data)[0] = byteOf cmd := by simp [packOf]
    rw [e]; exact byteOf_lt cmd
  · by_cases h1 : n = 1
    · subst h1
      have e : (packOf cmd inst data)[1] = byteOf inst := by simp [packOf]
      rw [e]; exact byteOf_lt inst
    · by_cases h4 : 4 ≤ n ∧ n < 20
      · rw [packOf_data cmd inst data n h4]; exact byteOf_lt _
      · rw [packOf_unused cmd inst data n h (by omega)]; decide

namespace Laws.CanonicalBytes

/-- The instruction's canonical encoding carries nothing but its symbols. -/
def Statement (i : Instr) : Prop := CanonicalPack (encode i)

theorem memoryPreset (c : PaletteIndex) : Statement (.memoryPreset c) := packOf_canonical _ _ _
theorem borderPreset (c : PaletteIndex) : Statement (.borderPreset c) := packOf_canonical _ _ _
theorem copyFont (f : FontOperands) : Statement (.copyFont f) := packOf_canonical _ _ _
theorem scrollPreset (fill : PaletteIndex) (h : HDir) (v : VDir) : Statement (.scrollPreset fill h v) := packOf_canonical _ _ _
theorem scrollCopy (fill : PaletteIndex) (h : HDir) (v : VDir) : Statement (.scrollCopy fill h v) := packOf_canonical _ _ _
theorem loadClutLo (colours : Vector Rgb4 8) : Statement (.loadClutLo colours) := packOf_canonical _ _ _
theorem loadClutHi (colours : Vector Rgb4 8) : Statement (.loadClutHi colours) := packOf_canonical _ _ _
theorem xorFont (f : FontOperands) : Statement (.xorFont f) := packOf_canonical _ _ _
theorem skipInst (inst : Symbol) : Statement (.skipInst inst) := packOf_canonical _ _ _
theorem skipCmd (cmd : Symbol) : Statement (.skipCmd cmd) := packOf_canonical _ _ _

end Laws.CanonicalBytes

end Sys2Proof
end

