-- ==== Sys2Proof/Laws/Step.lean ====
section
/-! SUPPORT. What a step can do, said once: a batch is the fold of `apply_pack`, and each command's whole effect. -/

namespace Sys2Proof.Machine

/-! ## Batches -/

theorem withCore_withCore (s : State) (d d' : Decoder) : (s.withCore d).withCore d' = s.withCore d' := rfl

theorem packsOf_zero (st : PackStream) (k : Nat) : packsOf st k 0 = [] := by
  unfold packsOf
  rw [List.range'_zero, List.map_nil]

theorem packsOf_succ (st : PackStream) (k n : Nat) : packsOf st k (n + 1) = st.fetchPack k :: packsOf st (k + 1) n := by
  unfold packsOf
  rw [List.range'_succ, List.map_cons]

theorem applyPack_eq (d : Decoder) (P : Pack) : applyPack d P = coreEffect (decodePack P) d := by
  simp only [applyPack, exec_eq, withCore_core]

theorem applyPackAt_eq (k : Nat) (s : State) :
    applyPackAt k s = .next (s.withCore (applyPack s.core (s.env.stream.fetchPack k))) := by
  simp only [applyPackAt, exec_eq, applyPack_eq]

/-- The batch of a DECODE_TO is the left fold of `apply_pack` over its packs (00_scope.md R11). -/
theorem applyPacks_eq (n k : Nat) (s : State) :
    applyPacks n k s = .next (s.withCore ((packsOf s.env.stream k n).foldl applyPack s.core)) := by
  induction n generalizing k s with
  | zero => rfl
  | succ n ih =>
    rw [applyPacks, applyPackAt_eq]
    simp only [ih]
    rw [withCore_env, withCore_core, withCore_withCore, packsOf_succ, List.foldl_cons]

theorem foldl_currentPack (Ps : List Pack) (d : Decoder) : (Ps.foldl applyPack d).currentPack = d.currentPack := by
  induction Ps generalizing d with
  | nil => rfl
  | cons P Ps ih => rw [List.foldl_cons, ih, applyPack_eq, coreEffect_currentPack]

theorem packsOf_append (st : PackStream) (k n m : Nat) : packsOf st k (n + m) = packsOf st k n ++ packsOf st (k + n) m := by
  unfold packsOf
  rw [← List.map_append, List.range'_append_1]

/-- The core after an accepted batch that starts from `d` (40_decoder_dispatch.md R102). -/
def batchCore (st : PackStream) (target : PackIndex) (d : Decoder) : Decoder :=
  ((packsOf st d.currentPack.toNat (target.toNat - d.currentPack.toNat)).foldl applyPack d).withCurrentPack target

theorem runBatch_eq (target : PackIndex) (s : State) :
    runBatch target s = .next ((s.withCore (batchCore s.env.stream target s.core)).emit (.decodeResult .ok)) := by
  rw [runBatch, applyPacks_eq]
  simp only [finishBatch]
  rw [withCore_core, withCore_withCore, batchCore]

/-- The whole of DECODE_TO: rejected by the length test, or a batch from the reset core, or a batch from the core as it is
(40_decoder_dispatch.md R102 to R104). -/
theorem runDecodeTo_eq (target : PackIndex) (s : State) :
    runDecodeTo target s =
      if s.env.stream.length < 24 * target.toNat then .next (s.emit (.decodeResult .insufficientInput))
      else .next ((s.withCore (batchCore s.env.stream target
        (if target.toNat < s.core.currentPack.toNat then Decoder.reset else s.core))).emit (.decodeResult .ok)) := by
  unfold runDecodeTo
  by_cases h : s.env.stream.length < 24 * target.toNat
  · rw [if_pos h, if_pos h, raiseInsufficientInput]
  · rw [if_neg h, if_neg h]
    by_cases hb : target.toNat < s.core.currentPack.toNat
    · rw [if_pos hb, if_pos hb, runBatch_eq, resetCore, withCore_withCore, withCore_env, withCore_core]
    · rw [if_neg hb, if_neg hb, runBatch_eq]

/-- What every pack keeps, a batch keeps. -/
theorem foldl_applyPack_keeps (p : Decoder → Prop) (h : ∀ i d, p d → p (coreEffect i d)) (Ps : List Pack) (d : Decoder)
    (hd : p d) : p (Ps.foldl applyPack d) := by
  induction Ps generalizing d with
  | nil => exact hd
  | cons P Ps ih => rw [List.foldl_cons]; apply ih; rw [applyPack_eq]; exact h _ _ hd

/-- A batch takes no notice of the cursor. -/
theorem foldl_withCurrentPack (Ps : List Pack) (d : Decoder) (p : PackIndex) :
    Ps.foldl applyPack (d.withCurrentPack p) = (Ps.foldl applyPack d).withCurrentPack p := by
  induction Ps generalizing d with
  | nil => rfl
  | cons P Ps ih => rw [List.foldl_cons, List.foldl_cons, applyPack_eq, applyPack_eq, coreEffect_withCurrentPack, ih]

/-- A batch leaves the cursor at its target. -/
@[simp] theorem batchCore_currentPack (st : PackStream) (target : PackIndex) (d : Decoder) :
    (batchCore st target d).currentPack = target := by
  rw [batchCore, withCurrentPack_currentPack]

/-- The batch of the one pack at the cursor. -/
theorem batchCore_one (st : PackStream) (d : Decoder) (h : d.currentPack.toNat + 1 < 2 ^ 32) :
    batchCore st (d.currentPack + 1) d =
      (coreEffect (decodePack (st.fetchPack d.currentPack.toNat)) d).withCurrentPack (d.currentPack + 1) := by
  have e : (d.currentPack + 1).toNat = d.currentPack.toNat + 1 := by
    rw [BitVec.toNat_add]; exact Nat.mod_eq_of_lt h
  unfold batchCore
  rw [e, Nat.add_sub_cancel_left, packsOf_succ, packsOf_zero, List.foldl_cons, List.foldl_nil, applyPack_eq]

/-! ## What an action does

Each action's effect, as functions of the core and the environment alone (00_scope.md R10). -/

/-- The core after RENDER_FRAME: flags cleared, nothing else (43_render.md R157, R159). -/
def renderCore (d : Decoder) : Decoder :=
  if d.borderDirty || d.screenDirty then clearAllFlags d
  else (dirtyVisibleBlocks d).foldl (fun d b => clearBlock b.1 b.2 d) d

/-- The framebuffer after RENDER_FRAME (43_render.md R157, R159). -/
def renderFb (d : Decoder) (fb : Memory Byte) : Memory Byte :=
  if d.borderDirty || d.screenDirty then renderFullFb d else (dirtyVisibleBlocks d).foldl (renderBlock d) fb

/-- The output of RENDER_FRAME (43_render.md R161). -/
def renderOutput (d : Decoder) : Output :=
  if d.borderDirty || d.screenDirty then .renderResult true []
  else .renderResult false ((dirtyVisibleBlocks d).map fun b => (b.1 - 1, b.2 - 1))

def actionCore (a : HostAction) (d : Decoder) (e : Env) : Decoder :=
  match a with
  | .command .reset => Decoder.reset
  | .command (.decodeTo target) =>
    if e.stream.length < 24 * target.toNat then d
    else batchCore e.stream target (if target.toNat < d.currentPack.toNat then Decoder.reset else d)
  | .command .renderFrame => renderCore d
  | .supplyStream _ => d
  | .supplyFrameBuffer _ => d

def actionEnv (a : HostAction) (d : Decoder) (e : Env) : Env :=
  match a with
  | .command .reset => e
  | .command (.decodeTo _) => e
  | .command .renderFrame => { e with fb := renderFb d e.fb }
  | .supplyStream bytes => { e with stream := PackStream.ofBytes bytes }
  | .supplyFrameBuffer written => { e with fb := suppliedFrameBuffer written }

def actionOutputs (a : HostAction) (d : Decoder) (e : Env) : List Output :=
  match a with
  | .command .reset => [.resetDone]
  | .command (.decodeTo target) =>
    [.decodeResult (if e.stream.length < 24 * target.toNat then .insufficientInput else .ok)]
  | .command .renderFrame => [renderOutput d]
  | .supplyStream _ => []
  | .supplyFrameBuffer _ => []

theorem renderFrame_eq (s : State) :
    renderFrame s = ⟨renderCore s.core, { s.env with fb := renderFb s.core s.env.fb }, s.pending,
      s.outputs ++ [renderOutput s.core]⟩ := by
  unfold renderFrame renderCore renderFb renderOutput
  by_cases h : (s.core.borderDirty || s.core.screenDirty) = true
  · rw [if_pos h, if_pos h, if_pos h, if_pos h]; rfl
  · rw [if_neg h, if_neg h, if_neg h, if_neg h]; rfl

/-- Every action answers a next state: the one its effect gives. -/
theorem runAction_eq (a : HostAction) (s : State) :
    runAction a s = .next ⟨actionCore a s.core s.env, actionEnv a s.core s.env, s.pending,
      s.outputs ++ actionOutputs a s.core s.env⟩ := by
  cases a with
  | command c =>
    cases c with
    | reset => rfl
    | decodeTo target =>
      simp only [runAction, runCommand, actionCore, actionEnv, actionOutputs]
      rw [runDecodeTo_eq]
      by_cases h : s.env.stream.length < 24 * target.toNat
      · rw [if_pos h, if_pos h, if_pos h]; rfl
      · rw [if_neg h, if_neg h, if_neg h]; rfl
    | renderFrame => simp only [runAction, runCommand, renderFrame_eq, actionCore, actionEnv, actionOutputs]
  | supplyStream bytes =>
    simp only [runAction, actionCore, actionEnv, actionOutputs, List.append_nil]; rfl
  | supplyFrameBuffer written =>
    simp only [runAction, actionCore, actionEnv, actionOutputs, List.append_nil]; rfl

/-! ## Steps -/

theorem step_idle {s : State} (h : s.pending = []) : step s = .next s := by
  unfold step; rw [h]

theorem step_action {s : State} {a : HostAction} {rest : List HostAction} (h : s.pending = a :: rest) :
    step s = .next ⟨actionCore a s.core s.env, actionEnv a s.core s.env, rest,
      s.outputs ++ actionOutputs a s.core s.env⟩ := by
  unfold step; rw [h]
  simp only [runAction_eq, withPending_core, withPending_env, withPending_pending, withPending_outputs]

/-- What a step that answers `t` can have been. -/
theorem step_cases {s t : State} (h : step s = .next t) :
    s.pending = [] ∧ t = s ∨
      ∃ a rest, s.pending = a :: rest ∧
        t = ⟨actionCore a s.core s.env, actionEnv a s.core s.env, rest, s.outputs ++ actionOutputs a s.core s.env⟩ := by
  cases hp : s.pending with
  | nil => rw [step_idle hp] at h; exact .inl ⟨rfl, by injection h with h; exact h.symm⟩
  | cons a rest =>
    rw [step_action hp] at h
    exact .inr ⟨a, rest, rfl, by injection h with h; exact h.symm⟩

end Sys2Proof.Machine
end

