-- ==== Sys2Proof/Laws/Render.lean ====
section
/-! SUPPORT. What the renderer writes, byte by byte, and that it keeps the framebuffer in canonical form (43_render.md R157 to R160). -/

namespace Sys2Proof.Machine

/-! ## One pixel -/

theorem fbByte_writePixel (fb : Memory Byte) (o a : Nat) (c : Colour) :
    fbByte (writePixel fb o c) a =
      if a = o then some c.r else if a = o + 1 then some c.g else if a = o + 2 then some c.b
      else if a = o + 3 then some Config.alphaOpaque else fbByte fb a := by
  unfold fbByte writePixel
  simp only [lookup_insert]
  split_ifs <;> first | rfl | omega

/-- The pixel that holds byte `o` is `(o / 4 % 288, o / 1152)`. -/
theorem pixel_of_byte {X Y k : Nat} (hX : X < 288) (hk : k < 4) :
    (pixelOffset X Y + k) / 4 % 288 = X ∧ (pixelOffset X Y + k) / 1152 = Y ∧ (pixelOffset X Y + k) % 4 = k := by
  unfold pixelOffset; omega

/-- The four bytes of a pixel, as `outByte` gives them. -/
theorem outByte_pixel (d : Decoder) {X Y : Nat} (hX : X < 288) :
    outByte d (pixelOffset X Y) = (outColour d X Y).r ∧ outByte d (pixelOffset X Y + 1) = (outColour d X Y).g ∧
    outByte d (pixelOffset X Y + 2) = (outColour d X Y).b ∧ outByte d (pixelOffset X Y + 3) = Config.alphaOpaque := by
  have h0 := pixel_of_byte (Y := Y) hX (show 0 < 4 by omega)
  have h1 := pixel_of_byte (Y := Y) hX (show 1 < 4 by omega)
  have h2 := pixel_of_byte (Y := Y) hX (show 2 < 4 by omega)
  have h3 := pixel_of_byte (Y := Y) hX (show 3 < 4 by omega)
  rw [Nat.add_zero] at h0
  refine ⟨?_, ?_, ?_, ?_⟩
  · unfold outByte; rw [h0.1, h0.2.1, h0.2.2]; rfl
  · unfold outByte; rw [h1.1, h1.2.1, h1.2.2]; rfl
  · unfold outByte; rw [h2.1, h2.2.1, h2.2.2]; rfl
  · unfold outByte; rw [h3.1, h3.2.1, h3.2.2]; rfl

/-- A pixel write leaves the bytes of its pixel as `outByte` gives them, and every other byte. -/
theorem fbByte_putPixel (d : Decoder) {X Y : Nat} (hX : X < 288) (fb : Memory Byte) (o : Nat) :
    fbByte (putPixel d X Y fb) o = if o / 4 % 288 = X ∧ o / 1152 = Y then some (outByte d o) else fbByte fb o := by
  unfold putPixel
  rw [fbByte_writePixel]
  obtain ⟨e0, e1, e2, e3⟩ := outByte_pixel d (Y := Y) hX
  by_cases h : o / 4 % 288 = X ∧ o / 1152 = Y
  · rw [if_pos h]
    have ho : o = pixelOffset X Y + o % 4 := by unfold pixelOffset; omega
    have hk : o % 4 < 4 := Nat.mod_lt _ (by omega)
    generalize o % 4 = k at ho hk
    subst ho
    obtain rfl | rfl | rfl | rfl : k = 0 ∨ k = 1 ∨ k = 2 ∨ k = 3 := by omega
    · rw [Nat.add_zero, if_pos rfl, e0]
    · rw [if_neg (by omega), if_pos rfl, e1]
    · rw [if_neg (by omega), if_neg (by omega), if_pos rfl, e2]
    · rw [if_neg (by omega), if_neg (by omega), if_neg (by omega), if_pos rfl, e3]
  · rw [if_neg h]
    have : ∀ k < 4, o ≠ pixelOffset X Y + k := by
      rintro k hk rfl
      exact h ⟨(pixel_of_byte hX hk).1, (pixel_of_byte hX hk).2.1⟩
    rw [if_neg (by simpa using this 0 (by omega)), if_neg (this 1 (by omega)), if_neg (this 2 (by omega)),
      if_neg (this 3 (by omega))]

/-! ## Lists of pixels -/

/-- The pixels of a visible block, in the order they are written (R159). -/
def blockPixels (b : Nat × Nat) : List (Nat × Nat) :=
  (List.range 12).flatMap fun r => (List.range 6).map fun p => (6 * (b.1 - 1) + p, 12 * (b.2 - 1) + r)

theorem foldl_flatMap_map {α β γ δ : Type} (l : List α) (m : List β) (g : α → β → γ) (f : δ → γ → δ) (x : δ) :
    l.foldl (fun x a => m.foldl (fun x b => f x (g a b)) x) x = (l.flatMap fun a => m.map (g a)).foldl f x := by
  induction l generalizing x with
  | nil => rfl
  | cons a l ih => rw [List.foldl_cons, ih, List.flatMap_cons, List.foldl_append, List.foldl_map]

theorem renderBlock_eq (d : Decoder) (fb : Memory Byte) (b : Nat × Nat) :
    renderBlock d fb b = (blockPixels b).foldl (fun fb q => putPixel d q.1 q.2 fb) fb := by
  unfold renderBlock blockPixels
  exact foldl_flatMap_map (List.range 12) (List.range 6) (fun r p => (6 * (b.1 - 1) + p, 12 * (b.2 - 1) + r))
    (fun fb q => putPixel d q.1 q.2 fb) fb

theorem mem_blockPixels (b : Nat × Nat) (X Y : Nat) :
    (X, Y) ∈ blockPixels b ↔ X / 6 = b.1 - 1 ∧ Y / 12 = b.2 - 1 := by
  unfold blockPixels
  simp only [List.mem_flatMap, List.mem_map, List.mem_range, Prod.mk.injEq]
  constructor
  · rintro ⟨r, hr, p, hp, h1, h2⟩; omega
  · rintro ⟨h1, h2⟩; exact ⟨Y % 12, by omega, X % 6, by omega, by omega, by omega⟩

theorem fbByte_putPixels (d : Decoder) (l : List (Nat × Nat)) (hl : ∀ q ∈ l, q.1 < 288) (fb : Memory Byte) (o : Nat) :
    fbByte (l.foldl (fun fb q => putPixel d q.1 q.2 fb) fb) o =
      if (o / 4 % 288, o / 1152) ∈ l then some (outByte d o) else fbByte fb o := by
  induction l generalizing fb with
  | nil => rw [if_neg (by simp)]; rfl
  | cons q l ih =>
    obtain ⟨X, Y⟩ := q
    rw [List.foldl_cons, ih (fun q hq => hl q (List.mem_cons_of_mem _ hq)), fbByte_putPixel d (hl _ List.mem_cons_self)]
    by_cases h : (o / 4 % 288, o / 1152) ∈ l
    · rw [if_pos h, if_pos (List.mem_cons_of_mem _ h)]
    · rw [if_neg h]
      by_cases h' : o / 4 % 288 = X ∧ o / 1152 = Y
      · rw [if_pos h', if_pos (by rw [h'.1, h'.2]; exact List.mem_cons_self)]
      · rw [if_neg h', if_neg]
        intro hm
        rcases List.mem_cons.1 hm with hm | hm
        · exact h' (Prod.mk.inj hm)
        · exact h hm

/-- One block write: the bytes of the block's pixels become what `outByte` gives, every other byte stays (R159). -/
theorem fbByte_renderBlock (d : Decoder) (fb : Memory Byte) (b : Nat × Nat) (hb : 1 ≤ b.1 ∧ b.1 ≤ 48) (o : Nat) :
    fbByte (renderBlock d fb b) o =
      if o / 4 % 288 / 6 = b.1 - 1 ∧ o / 1152 / 12 = b.2 - 1 then some (outByte d o) else fbByte fb o := by
  rw [renderBlock_eq, fbByte_putPixels]
  · simp only [mem_blockPixels]
  · rintro ⟨X, Y⟩ hq
    have := (mem_blockPixels b X Y).1 hq
    dsimp only
    omega

/-- The block-partial path, byte by byte (R159). -/
theorem fbByte_renderBlocks (d : Decoder) (bs : List (Nat × Nat)) (hbs : ∀ b ∈ bs, 1 ≤ b.1 ∧ b.1 ≤ 48) (fb : Memory Byte)
    (o : Nat) :
    fbByte (bs.foldl (renderBlock d) fb) o =
      if ∃ b ∈ bs, o / 4 % 288 / 6 = b.1 - 1 ∧ o / 1152 / 12 = b.2 - 1 then some (outByte d o) else fbByte fb o := by
  induction bs generalizing fb with
  | nil => rw [if_neg (by simp)]; rfl
  | cons b bs ih =>
    rw [List.foldl_cons, ih (fun b hb => hbs b (List.mem_cons_of_mem _ hb)), fbByte_renderBlock d fb b (hbs _ List.mem_cons_self)]
    by_cases h : ∃ b ∈ bs, o / 4 % 288 / 6 = b.1 - 1 ∧ o / 1152 / 12 = b.2 - 1
    · have h' : ∃ c ∈ b :: bs, o / 4 % 288 / 6 = c.1 - 1 ∧ o / 1152 / 12 = c.2 - 1 := by
        obtain ⟨c, hc, e⟩ := h; exact ⟨c, List.mem_cons_of_mem _ hc, e⟩
      rw [if_pos h, if_pos h']
    · rw [if_neg h]
      by_cases hb : o / 4 % 288 / 6 = b.1 - 1 ∧ o / 1152 / 12 = b.2 - 1
      · rw [if_pos hb, if_pos ⟨b, List.mem_cons_self, hb⟩]
      · rw [if_neg hb, if_neg]
        rintro ⟨c, hc, e⟩
        rcases List.mem_cons.1 hc with rfl | hc
        · exact hb e
        · exact h ⟨c, hc, e⟩

/-- The full-frame path, byte by byte (R157). -/
theorem fbByte_renderFullFb (d : Decoder) (o : Nat) :
    fbByte (renderFullFb d) o = if o < 221184 then some (outByte d o) else none := by
  unfold fbByte renderFullFb
  exact lookup_map_range 221184 (outByte d) o

/-- A pixel shows its colour where the framebuffer's four bytes are those of `outByte`. -/
theorem pixelShows_of_outByte (d : Decoder) (fb : Memory Byte) {X Y : Nat} (hX : X < 288)
    (h : ∀ k < 4, fbByte fb (pixelOffset X Y + k) = some (outByte d (pixelOffset X Y + k))) :
    PixelShows fb X Y (outColour d X Y) := by
  obtain ⟨e0, e1, e2, e3⟩ := outByte_pixel d (Y := Y) hX
  exact ⟨(h 0 (by omega)).trans (congrArg some e0), (h 1 (by omega)).trans (congrArg some e1),
    (h 2 (by omega)).trans (congrArg some e2), (h 3 (by omega)).trans (congrArg some e3)⟩

/-- The colour of a pixel depends on VRAM and the palette alone (R156). -/
theorem outColour_congr (d e : Decoder) (hv : d.vram = e.vram) (hp : d.pal = e.pal) (X Y : Nat) :
    outColour d X Y = outColour e X Y := by
  unfold outColour pix Decoder.colour Decoder.cell
  simp only [hv, hp]

theorem outByte_congr (d e : Decoder) (hv : d.vram = e.vram) (hp : d.pal = e.pal) (o : Nat) : outByte d o = outByte e o := by
  unfold outByte
  rw [outColour_congr d e hv hp]

/-- The colour of pixel `p` of a row of block column `cx`, from the cell that holds it (R156). -/
theorem outColour_block (d : Decoder) {cx p : Nat} (Y : Nat) (h : 1 ≤ cx) (hp : p < 6) :
    outColour d (6 * (cx - 1) + p) Y = d.colour (lane (d.cell ((Y + 12) * 50 + cx)) p) := by
  unfold outColour pix
  congr 3
  · congr 1; omega
  · omega

/-! ## The blocks and their flags -/

theorem mem_visibleBlocks (x y : Nat) : (x, y) ∈ visibleBlocks ↔ 1 ≤ x ∧ x ≤ 48 ∧ 1 ≤ y ∧ y ≤ 16 := by
  unfold visibleBlocks
  simp only [List.mem_flatMap, List.mem_map, List.mem_range, Prod.mk.injEq]
  constructor
  · rintro ⟨j, hj, i, hi, h1, h2⟩; omega
  · intro h; exact ⟨y - 1, by omega, x - 1, by omega, by omega, by omega⟩

theorem mem_dirtyVisibleBlocks (d : Decoder) (x y : Nat) : (x, y) ∈ dirtyVisibleBlocks d ↔ VisibleDirty d x y := by
  unfold dirtyVisibleBlocks VisibleDirty
  rw [List.mem_filter, mem_visibleBlocks]
  simp only [and_assoc]

theorem visibleBlocks_nodup : visibleBlocks.Nodup := by
  unfold visibleBlocks
  rw [List.nodup_flatMap]
  refine ⟨fun j _ => ?_, ?_⟩
  · exact List.Nodup.map (fun a b h => by simpa using h) List.nodup_range
  · refine List.Pairwise.imp ?_ List.pairwise_lt_range
    intro a b hab
    simp only [Function.onFun]
    intro q h1 h2
    simp only [List.mem_map] at h1 h2
    obtain ⟨i, _, rfl⟩ := h1
    obtain ⟨i', _, h⟩ := h2
    simp at h
    omega

theorem dirtyVisibleBlocks_nodup (d : Decoder) : (dirtyVisibleBlocks d).Nodup := visibleBlocks_nodup.filter _

/-- Clearing flags of blocks changes those flags alone. -/
theorem clearBlocks_frame (bs : List (Nat × Nat)) (d : Decoder) :
    bs.foldl (fun d b => clearBlock b.1 b.2 d) d = d.withDirty (bs.foldl (fun d b => clearBlock b.1 b.2 d) d).dirty := by
  induction bs generalizing d with
  | nil => rfl
  | cons b bs ih =>
    rw [List.foldl_cons, ih (clearBlock b.1 b.2 d)]
    generalize (bs.foldl (fun d b => clearBlock b.1 b.2 d) (clearBlock b.1 b.2 d)).dirty = m
    rfl

theorem clearBlocks_flag (bs : List (Nat × Nat)) (d : Decoder) (k : Nat) :
    Memory.read flagUnlisted (bs.foldl (fun d b => clearBlock b.1 b.2 d) d).dirty k =
      if ∃ b ∈ bs, k = b.2 * 50 + b.1 then false else Memory.read flagUnlisted d.dirty k := by
  induction bs generalizing d with
  | nil => rw [if_neg (by simp)]; rfl
  | cons b bs ih =>
    rw [List.foldl_cons, ih, clearBlock_flag]
    by_cases h : ∃ b ∈ bs, k = b.2 * 50 + b.1
    · have h' : ∃ c ∈ b :: bs, k = c.2 * 50 + c.1 := by
        obtain ⟨c, hc, e⟩ := h; exact ⟨c, List.mem_cons_of_mem _ hc, e⟩
      rw [if_pos h, if_pos h']
    · rw [if_neg h]
      by_cases hb : k = b.2 * 50 + b.1
      · rw [if_pos hb, if_pos ⟨b, List.mem_cons_self, hb⟩]
      · rw [if_neg hb, if_neg]
        rintro ⟨c, hc, e⟩
        rcases List.mem_cons.1 hc with rfl | hc
        · exact hb e
        · exact h ⟨c, hc, e⟩

/-! ## The core after a render -/

theorem renderCore_full (d : Decoder) (h : d.screenDirty = true ∨ d.borderDirty = true) : renderCore d = clearAllFlags d := by
  unfold renderCore
  rw [if_pos (by rcases h with h | h <;> simp [h])]

theorem renderCore_partial (d : Decoder) (h1 : d.screenDirty = false) (h2 : d.borderDirty = false) :
    renderCore d = (dirtyVisibleBlocks d).foldl (fun d b => clearBlock b.1 b.2 d) d := by
  unfold renderCore
  rw [if_neg (by simp [h1, h2])]

theorem renderFb_full (d : Decoder) (fb : Memory Byte) (h : d.screenDirty = true ∨ d.borderDirty = true) :
    renderFb d fb = renderFullFb d := by
  unfold renderFb
  rw [if_pos (by rcases h with h | h <;> simp [h])]

theorem renderFb_partial (d : Decoder) (fb : Memory Byte) (h1 : d.screenDirty = false) (h2 : d.borderDirty = false) :
    renderFb d fb = (dirtyVisibleBlocks d).foldl (renderBlock d) fb := by
  unfold renderFb
  rw [if_neg (by simp [h1, h2])]

theorem renderOutput_full (d : Decoder) (h : d.screenDirty = true ∨ d.borderDirty = true) :
    renderOutput d = .renderResult true [] := by
  unfold renderOutput
  rw [if_pos (by rcases h with h | h <;> simp [h])]

theorem renderOutput_partial (d : Decoder) (h1 : d.screenDirty = false) (h2 : d.borderDirty = false) :
    renderOutput d = .renderResult false ((dirtyVisibleBlocks d).map fun b => (b.1 - 1, b.2 - 1)) := by
  unfold renderOutput
  rw [if_neg (by simp [h1, h2])]

/-- Rendering clears flags and changes nothing else of the core (R163). -/
theorem renderCore_frame (d : Decoder) :
    renderCore d = ((d.withScreenDirty false).withBorderDirty false).withDirty (renderCore d).dirty := by
  by_cases h : d.screenDirty = true ∨ d.borderDirty = true
  · rw [renderCore_full d h]; rfl
  · have h1 : d.screenDirty = false := by simpa using fun e => h (.inl e)
    have h2 : d.borderDirty = false := by simpa using fun e => h (.inr e)
    have e : (d.withScreenDirty false).withBorderDirty false = d := by
      cases d; simp only at h1 h2; subst h1; subst h2; rfl
    rw [e, renderCore_partial d h1 h2]
    exact clearBlocks_frame _ _

@[simp] theorem renderCore_pal (d : Decoder) : (renderCore d).pal = d.pal := by
  rw [renderCore_frame, withDirty_pal, withBorderDirty_pal, withScreenDirty_pal]
@[simp] theorem renderCore_vram (d : Decoder) : (renderCore d).vram = d.vram := by
  rw [renderCore_frame, withDirty_vram, withBorderDirty_vram, withScreenDirty_vram]
@[simp] theorem renderCore_screenDirty (d : Decoder) : (renderCore d).screenDirty = false := by
  rw [renderCore_frame, withDirty_screenDirty, withBorderDirty_screenDirty, withScreenDirty_screenDirty]
@[simp] theorem renderCore_borderDirty (d : Decoder) : (renderCore d).borderDirty = false := by
  rw [renderCore_frame, withDirty_borderDirty, withBorderDirty_borderDirty]
@[simp] theorem renderCore_borderIndex (d : Decoder) : (renderCore d).borderIndex = d.borderIndex := by
  rw [renderCore_frame, withDirty_borderIndex, withBorderDirty_borderIndex, withScreenDirty_borderIndex]
@[simp] theorem renderCore_currentPack (d : Decoder) : (renderCore d).currentPack = d.currentPack := by
  rw [renderCore_frame, withDirty_currentPack, withBorderDirty_currentPack, withScreenDirty_currentPack]

/-! ## The canonical form -/

theorem writePixel_wf {fb : Memory Byte} {o : Nat} {c : Colour} (h : Memory.wf 221184 none fb = true)
    (ho : o + 3 < 221184) : Memory.wf 221184 none (writePixel fb o c) = true :=
  insert_wf (insert_wf (insert_wf (insert_wf h (by omega) (by simp)) (by omega) (by simp)) (by omega) (by simp)) ho (by simp)

theorem renderBlocks_wf (d : Decoder) (bs : List (Nat × Nat)) (hbs : ∀ b ∈ bs, b ∈ visibleBlocks) (fb : Memory Byte)
    (h : Memory.wf 221184 none fb = true) : Memory.wf 221184 none (bs.foldl (renderBlock d) fb) = true := by
  have key : ∀ (l : List (Nat × Nat)), (∀ q ∈ l, q.1 < 288 ∧ q.2 < 192) → ∀ fb : Memory Byte,
      Memory.wf 221184 none fb = true →
      Memory.wf 221184 none (l.foldl (fun fb q => putPixel d q.1 q.2 fb) fb) = true := by
    intro l
    induction l with
    | nil => exact fun _ fb h => h
    | cons q l ih =>
      intro hq fb h
      rw [List.foldl_cons]
      apply ih (fun q hq' => hq q (List.mem_cons_of_mem _ hq')) (putPixel d q.1 q.2 fb)
      refine writePixel_wf h ?_
      have := hq q List.mem_cons_self
      unfold pixelOffset
      omega
  induction bs generalizing fb with
  | nil => exact h
  | cons b bs ih =>
    rw [List.foldl_cons]
    apply ih (fun b hb => hbs b (List.mem_cons_of_mem _ hb)) (renderBlock d fb b)
    rw [renderBlock_eq]
    refine key _ ?_ _ h
    rintro ⟨X, Y⟩ hq
    have h1 := (mem_blockPixels b X Y).1 hq
    have h2 := (mem_visibleBlocks b.1 b.2).1 (hbs b List.mem_cons_self)
    dsimp only
    omega

theorem renderFb_wf (d : Decoder) (fb : Memory Byte) (h : Memory.wf 221184 none fb = true) :
    Memory.wf 221184 none (renderFb d fb) = true := by
  unfold renderFb
  split
  · unfold renderFullFb; exact mapRange_wf 221184 (outByte d)
  · exact renderBlocks_wf d _ (fun b hb => List.mem_of_mem_filter hb) fb h

theorem renderCore_canonical {d : Decoder} (h : CoreCanonical d) : CoreCanonical (renderCore d) := by
  refine ⟨by rw [renderCore_vram]; exact h.1, ?_⟩
  unfold renderCore
  split
  · exact wf_nil _ _
  · have key : ∀ (bs : List (Nat × Nat)), (∀ b ∈ bs, b ∈ visibleBlocks) → ∀ d : Decoder,
        Memory.wf 900 (some flagUnlisted) d.dirty = true →
        Memory.wf 900 (some flagUnlisted) (bs.foldl (fun d b => clearBlock b.1 b.2 d) d).dirty = true := by
      intro bs
      induction bs with
      | nil => exact fun _ d h => h
      | cons b bs ih =>
        intro hbs d h
        rw [List.foldl_cons]
        apply ih (fun b hb => hbs b (List.mem_cons_of_mem _ hb)) (clearBlock b.1 b.2 d)
        have h2 := (mem_visibleBlocks b.1 b.2).1 (hbs b List.mem_cons_self)
        exact write_wf (u := flagUnlisted) (m := d.dirty) (a := b.2 * 50 + b.1) (v := false) h (by omega)
    exact key _ (fun b hb => List.mem_of_mem_filter hb) _ h.2

end Sys2Proof.Machine
end

