-- ==== Sys2Proof/Laws/Scroll.lean ====
section
/-! SUPPORT. Where a scroll takes each cell from (44_scroll.md R183, R184). -/

namespace Sys2Proof.Machine

/-- One cell after a horizontal shift: the fill in a vacated column of a preset, else the cell one column away (R183). -/
theorem hshift_cell (h : HDir) (copy : Bool) (fill : Cell) (m : Memory Cell) (x Y : Nat) (hx : x < 50) (hY : Y < 216) :
    (columnVacated h x → copy = false → cellAt (hshift h copy fill m) x Y = fill) ∧
    (copy = true ∨ ¬ columnVacated h x → cellAt (hshift h copy fill m) x Y = cellAt m ((x + columnOffset h) % 50) Y) := by
  cases h
  · rw [hshift_none]; simp only [columnVacated, columnOffset]
    constructor
    · rintro (⟨h, _⟩ | ⟨h, _⟩) <;> cases h
    · intro _; congr 1; omega
  · rw [hshift_right, cellAt_hshiftRight _ _ _ _ _ hx hY]; simp only [columnVacated, columnOffset]
    constructor
    · rintro (⟨_, h⟩ | ⟨h, _⟩) hc
      · simp [h, hc]
      · cases h
    · intro h
      by_cases h0 : x = 0
      · subst h0; simp at h; simp [h]
      · rw [if_neg h0]; congr 1; omega
  · rw [hshift_left, cellAt_hshiftLeft _ _ _ _ _ hx hY]; simp only [columnVacated, columnOffset]
    constructor
    · rintro (⟨h, _⟩ | ⟨_, h⟩) hc
      · cases h
      · simp [h, hc]
    · intro h
      by_cases h0 : x = 49
      · subst h0; simp at h; simp [h]
      · rw [if_neg h0]; congr 1; omega
  · rw [hshift_h3]; simp only [columnVacated, columnOffset]
    constructor
    · rintro (⟨h, _⟩ | ⟨h, _⟩) <;> cases h
    · intro _; congr 1; omega

/-- One cell after a vertical shift: the fill in a vacated row of a preset, else the cell one font row away (R184). -/
theorem vshift_cell (h : VDir) (copy : Bool) (fill : Cell) (m : Memory Cell) (x Y : Nat) (hx : x < 50) (hY : Y < 216) :
    (rowVacated h Y → copy = false → cellAt (vshift h copy fill m) x Y = fill) ∧
    (copy = true ∨ ¬ rowVacated h Y → cellAt (vshift h copy fill m) x Y = cellAt m x ((Y + rowOffset h) % 216)) := by
  cases h
  · rw [vshift_none]; simp only [rowVacated, rowOffset]
    constructor
    · rintro (⟨h, _⟩ | ⟨h, _⟩) <;> cases h
    · intro _; congr 1; omega
  · rw [vshift_down, cellAt_vshiftDown _ _ _ _ _ hx hY]; simp only [rowVacated, rowOffset]
    constructor
    · rintro (⟨_, h⟩ | ⟨h, _⟩) hc
      · simp [h, hc]
      · cases h
    · intro h
      by_cases h0 : Y < 12
      · have hc : copy = true := h.resolve_right fun hn => hn (.inl ⟨trivial, h0⟩)
        rw [if_pos h0, if_pos hc]; exact congrArg (cellAt m x) (by omega)
      · rw [if_neg h0]; congr 1; omega
  · rw [vshift_up, cellAt_vshiftUp _ _ _ _ _ hx hY]; simp only [rowVacated, rowOffset]
    constructor
    · rintro (⟨h, _⟩ | ⟨_, h⟩) hc
      · cases h
      · simp [h, hc]
    · intro h
      by_cases h0 : 204 ≤ Y
      · have hc : copy = true := h.resolve_right fun hn => hn (.inr ⟨trivial, h0⟩)
        rw [if_pos h0, if_pos hc]; exact congrArg (cellAt m x) (by omega)
      · rw [if_neg h0]; congr 1; omega
  · rw [vshift_v3]; simp only [rowVacated, rowOffset]
    constructor
    · rintro (⟨h, _⟩ | ⟨h, _⟩) <;> cases h
    · intro _; congr 1; omega

/-- Reading VRAM by linear index and by coordinates. -/
theorem read_eq_cellAt (m : Memory Cell) (j : Nat) : Memory.read vramUnlisted m j = cellAt m (j % 50) (j / 50) := by
  unfold cellAt cellIdx; congr 1; omega

end Sys2Proof.Machine
end

