-- ==== Sys2Proof/Laws/Stream.lean ====
section
/-! SUPPORT. The pack stream: what is placed is fetched, and every operation on streams and on the supplied framebuffer keeps the
canonical form. -/

namespace Sys2Proof.Machine

theorem place_read (m : Memory Byte) (k : Nat) (P : Pack) (j : Nat) (hj : j < 24) :
    Memory.read streamUnlisted ((List.finRange 24).foldl (fun m n => Memory.write streamUnlisted m (24 * k + n.val) P[n]) m)
      (24 * k + j) = P[j] := by
  have : ∀ (l : List (Fin 24)) (m : Memory Byte), (⟨j, hj⟩ ∈ l ∨ Memory.read streamUnlisted m (24 * k + j) = P[j]) →
      Memory.read streamUnlisted (l.foldl (fun m n => Memory.write streamUnlisted m (24 * k + n.val) P[n]) m) (24 * k + j) = P[j] := by
    intro l
    induction l with
    | nil => intro m h; simpa using h
    | cons n l ih =>
      intro m h
      rw [List.foldl_cons]
      apply ih
      by_cases hn : n = ⟨j, hj⟩
      · right; rw [read_write, hn]; simp
      · rcases h with h | h
        · rcases List.mem_cons.1 h with h | h
          · exact absurd h.symm hn
          · exact .inl h
        · right; rw [read_write, if_neg]; exact h
          intro e; apply hn; ext; simp; omega
  exact this _ _ (.inl (List.mem_finRange _))

/-- The pack placed at an index is the one fetched from it. -/
theorem fetch_placePack (st : PackStream) (k : Nat) (P : Pack) : (st.placePack k P).fetchPack k = P := by
  refine Vector.ext fun n hn => ?_
  simp only [PackStream.fetchPack, Vector.getElem_ofFn, PackStream.byteAt, PackStream.placePack]
  exact place_read _ _ _ _ _

/-- A fetch reads the 24 bytes of its pack alone. -/
theorem fetchPack_congr (st st' : PackStream) (k : Nat)
    (h : ∀ a, 24 * k ≤ a → a < 24 * (k + 1) → st.byteAt a = st'.byteAt a) : st.fetchPack k = st'.fetchPack k := by
  unfold PackStream.fetchPack
  congr 1
  funext n
  exact h _ (by omega) (by omega)

/-- The bytes of a supplied stream. -/
theorem ofBytes_byteAt (bytes : List Byte) (a : Nat) (h : a < bytes.length) :
    (PackStream.ofBytes bytes).byteAt a = bytes[a] := by
  simp only [PackStream.byteAt, PackStream.ofBytes]
  rw [read_tabulate, if_pos h]
  simp [h]

/-! ## The canonical form -/

theorem ofBytes_wf (bytes : List Byte) :
    Memory.wf (PackStream.ofBytes bytes).length (some streamUnlisted) (PackStream.ofBytes bytes).cells = true :=
  tabulate_wf streamUnlisted bytes.length _

theorem wf_mono {α : Type} [DecidableEq α] {n n' : Nat} {u : Option α} {m : Memory α} (h : Memory.wf n u m = true)
    (hn : n ≤ n') : Memory.wf n' u m = true := by
  rw [wf_iff] at h ⊢
  exact ⟨h.1, fun p hp => ⟨Nat.lt_of_lt_of_le (h.2 p hp).1 hn, (h.2 p hp).2⟩⟩

theorem placePack_wf (st : PackStream) (k : Nat) (P : Pack) (h : Memory.wf st.length (some streamUnlisted) st.cells = true) :
    Memory.wf (st.placePack k P).length (some streamUnlisted) (st.placePack k P).cells = true := by
  have key : ∀ (l : List (Fin 24)) (m : Memory Byte), Memory.wf (max st.length (24 * (k + 1))) (some streamUnlisted) m = true →
      Memory.wf (max st.length (24 * (k + 1))) (some streamUnlisted)
        (l.foldl (fun m n => Memory.write streamUnlisted m (24 * k + n.val) P[n]) m) = true := by
    intro l
    induction l with
    | nil => intro m hm; exact hm
    | cons n l ih => intro m hm; exact ih _ (write_wf hm (by omega))
  exact key _ _ (wf_mono h (Nat.le_max_left _ _))

theorem suppliedFrameBuffer_wf (written : List Host.Cell) :
    Memory.wf 221184 none (suppliedFrameBuffer written) = true := by
  have key : ∀ (l : List Host.Cell) (fb : Memory Byte), Memory.wf 221184 none fb = true →
      Memory.wf 221184 none (l.foldl (fun fb p => if p.1 < 221184 then Memory.insert fb p.1 p.2 else fb) fb) = true := by
    intro l
    induction l with
    | nil => intro fb h; exact h
    | cons p l ih =>
      intro fb h
      rw [List.foldl_cons]
      refine ih _ ?_
      split
      · exact insert_wf h (by assumption) (by simp)
      · exact h
  exact key _ _ (wf_nil _ _)

end Sys2Proof.Machine
end

