-- ==== Sys2Proof/Tests/Slice0.lean ====
section
/-! SUPPORT. Tests of the model on the spec's own examples (95_test_vectors.md and the opcode table), each with its source in a comment,
and for every statement with hypotheses a witness that meets them together. -/

namespace Sys2Proof.Tests

open Sys2Proof Sys2Proof.Machine

/-! ## Builders -/

/-- A pack from its first bytes, the rest 0. -/
def pack (bytes : List Byte) : Pack := Vector.ofFn fun n : Fin 24 => bytes.getD n.val 0#8

/-- The core after one pack. -/
def after (bytes : List Byte) (d : Decoder) : Decoder := applyPack d (pack bytes)

/-- The state after reset with these actions pending. -/
def waiting (as : List HostAction) : State := State.reset.withPending as

/-- The state after reset with these packs as the stream and these actions pending. -/
def holding (packs : List (List Byte)) (as : List HostAction) : State :=
  (waiting as).withStream (PackStream.ofBytes (packs.flatMap fun bytes => (pack bytes).toList))

/-- The core that a step leaves. -/
def coreAfter (s : State) : Option Decoder :=
  match step s with
  | .next t => some t.core
  | .fault _ => none
  | .refused _ => none

/-- The outputs that a step leaves. -/
def outputsAfter (s : State) : List Output :=
  match step s with
  | .next t => t.outputs
  | .fault _ => []
  | .refused _ => []

/-! ## WellFormed: one ill-formed term for each check, refused -/

-- 30_encoding.md R74: 0x01 is recognised, so it is no SKIP_INST.
theorem test_wellFormed_refuses_recognised_inst : (Instr.skipInst 0x01).wellFormed = false := by decide
theorem test_wellFormed_refuses_every_recognised_inst :
    ∀ v ∈ recognisedInsts, (Instr.skipInst v).wellFormed = false := by decide
-- 40_decoder_dispatch.md R107: command 9 is TV graphics.
theorem test_wellFormed_refuses_graphics_command : (Instr.skipCmd 9).wellFormed = false := by decide
theorem test_wellFormed_accepts_skips : (Instr.skipInst 0x1C).wellFormed = true ∧ (Instr.skipCmd 8).wellFormed = true := by
  decide

/-! ## Decode: words written out from the spec's encodings -/

-- 95_test_vectors.md W2, and the table of 2.2: byte 4 = 0x13 is index 3 (bits 5:4 ignored).
theorem test_decode_memoryPreset : decodePack (pack [0x09, 0x01, 0, 0, 0x13]) = .memoryPreset 3 := by decide
-- 95_test_vectors.md 2.2, BORDER_PRESET table, P[4] = 0x31.
theorem test_decode_borderPreset : decodePack (pack [0x09, 0x02, 0, 0, 0x31]) = .borderPreset 1 := by decide
-- 95_test_vectors.md V-F7: bits 7:6 set everywhere.
theorem test_decode_copyFont :
    decodePack (pack [0xC9, 0xC6, 0xC0, 0xC0, 0xC1, 0xC0, 0xC3, 0xC2, 0xFF, 0xFF, 0xFF, 0xFF, 0xFF, 0xFF, 0xFF, 0xFF, 0xFF,
      0xFF, 0xFF, 0xFF, 0xC0, 0xC0, 0xC0, 0xC0]) =
      .copyFont ⟨0, 1, 0, 2, 3, Vector.replicate 12 0x3F⟩ := by decide
-- 95_test_vectors.md V-F5, channel 13 = 3 * 4 + 1, with the XOR form of W6; byte 6 bit 5 ignored (V-F8).
theorem test_decode_xorFont :
    decodePack (pack [0x09, 0x26, 0, 0, 0x3F, 0x10, 0x21, 0x01, 0x3F]) =
      .xorFont ⟨13, 15, 0, 1, 1, #v[0x3F, 0, 0, 0, 0, 0, 0, 0, 0, 0, 0, 0]⟩ := by decide
-- 95_test_vectors.md V-S1 and V-S2.
theorem test_decode_scrollPreset :
    decodePack (pack [0x09, 0x14, 0, 0, 0x37, 0x1F, 0x0F]) = .scrollPreset 7 .right .none := by decide
-- 95_test_vectors.md 2.4, SCROLL_COPY LEFT, UP.
theorem test_decode_scrollCopy : decodePack (pack [0x09, 0x18, 0, 0, 0, 0x20, 0x20]) = .scrollCopy 0 .left .up := by decide
-- 95_test_vectors.md V-P1 (first four entries) and its component table.
theorem test_decode_loadClutLo :
    decodePack (pack [0x09, 0x1E, 0, 0, 0x00, 0x00, 0x3F, 0x3F, 0x3C, 0x00, 0x03, 0x30, 0x00, 0x0F, 0x04, 0x23, 0x22, 0x08,
      0x3F, 0x30]) =
      .loadClutLo #v[⟨0, 0, 0⟩, ⟨15, 15, 15⟩, ⟨15, 0, 0⟩, ⟨0, 15, 0⟩, ⟨0, 0, 15⟩, ⟨1, 2, 3⟩, ⟨8, 8, 8⟩, ⟨15, 15, 0⟩] := by
  decide
-- 95_test_vectors.md V-P2.
theorem test_decode_loadClutHi :
    decodePack (pack [0x09, 0x1F, 0, 0, 0, 0, 0x11, 0x16]) =
      .loadClutHi #v[⟨0, 0, 0⟩, ⟨4, 5, 6⟩, ⟨0, 0, 0⟩, ⟨0, 0, 0⟩, ⟨0, 0, 0⟩, ⟨0, 0, 0⟩, ⟨0, 0, 0⟩, ⟨0, 0, 0⟩] := by decide
-- 95_test_vectors.md V-D7 and V-D9.
theorem test_decode_skipInst :
    decodePack (pack [0x09, 0x1C, 0, 0, 0x0F]) = .skipInst 0x1C ∧ decodePack (pack [0x09, 0x2E]) = .skipInst 0x2E := by decide
-- 95_test_vectors.md V-D5 and V-D10.
theorem test_decode_skipCmd :
    decodePack (pack [0x08, 0x01, 0, 0, 0x0F]) = .skipCmd 8 ∧ decodePack (Vector.replicate 24 0xFF) = .skipCmd 0x3F := by decide
-- 20_memory.md R42: 23 bytes are no pack (95_test_vectors.md V-D3).
theorem test_decode_short : decode (List.replicate 23 0#8) = .error .truncatedPack := by decide
-- spec/opcode_table.json: the value of each row, as the table numbers its bits (SKIP_INST's and SKIP_CMD's own patterns).
theorem test_decode_table_words :
    (opcodeRows.map fun row => (decodeTableWord 16 row.pattern.toNat).map Instr.mnemonic) =
      opcodeRows.map fun row => some row.mnemonic := by decide

/-! ## The palette and preset instructions -/

-- 95_test_vectors.md W2: cells 0x333333, screen_dirty.
theorem test_memoryPreset :
    let d := after [0x09, 0x01, 0, 0, 0x03] Decoder.reset
    d.cell 0 = 0x333333 ∧ d.cell 50 = 0x333333 ∧ d.screenDirty = true ∧ d.borderDirty = false := by decide
-- 95_test_vectors.md 2.2: "00 ... and screen_dirty is still set".
theorem test_memoryPreset_zero : (after [0x09, 0x01] Decoder.reset).screenDirty = true := by decide

/-- `pal[1] = pal[2] = (255, 0, 0)`, the start of the BORDER_PRESET table of 95_test_vectors.md 2.2. -/
def redPalette : Decoder := (Decoder.reset.setColour 1 ⟨255, 0, 0⟩).setColour 2 ⟨255, 0, 0⟩

-- The table's first two rows: black to red, then red to red.
theorem test_borderPreset_colours :
    (after [0x09, 0x02, 0, 0, 0x01] redPalette).borderDirty = true ∧
      (after [0x09, 0x02, 0, 0, 0x02] (redPalette.withBorderIndex 1)).borderDirty = false ∧
      (after [0x09, 0x02, 0, 0, 0x02] (redPalette.withBorderIndex 1)).borderIndex = 2 := by decide
-- "BORDER_PRESET never clears border_dirty".
theorem test_borderPreset_keeps : (after [0x09, 0x02] (Decoder.reset.withBorderDirty true)).borderDirty = true := by decide

-- 95_test_vectors.md W3.
theorem test_loadClutLo :
    let d := after [0x09, 0x1E, 0, 0, 0x3C, 0x0F] Decoder.reset
    d.colour 0 = ⟨0xFF, 0, 0xFF⟩ ∧ d.colour 1 = ⟨0, 0, 0⟩ ∧ d.screenDirty = true ∧ d.borderDirty = true := by decide
-- 95_test_vectors.md component table: 02 10 and 01 20.
theorem test_loadClutLo_green :
    (after [0x09, 0x1E, 0, 0, 0x02, 0x10, 0x01, 0x20] Decoder.reset).colour 0 = ⟨0, 0x99, 0⟩ ∧
      (after [0x09, 0x1E, 0, 0, 0x02, 0x10, 0x01, 0x20] Decoder.reset).colour 1 = ⟨0, 0x66, 0⟩ := by decide
-- 95_test_vectors.md V-P2: the border's entry is 9.
theorem test_loadClutHi :
    let d := after [0x09, 0x1F, 0, 0, 0, 0, 0x11, 0x16] (Decoder.reset.withBorderIndex 9)
    d.colour 9 = ⟨68, 85, 102⟩ ∧ d.colour 8 = ⟨0, 0, 0⟩ ∧ d.colour 1 = ⟨0, 0, 0⟩ ∧ d.screenDirty = true ∧ d.borderDirty = true := by
  decide
-- 41_palette_clut.md R126, Example: entry 8 changes, the border's entry 0 does not.
theorem test_loadClutHi_border :
    let d := after [0x09, 0x1F, 0, 0, 0x00, 0x0F] Decoder.reset
    d.colour 8 = ⟨0, 0, 0xFF⟩ ∧ d.screenDirty = true ∧ d.borderDirty = false := by decide

/-! ## The font instructions -/

/-- The state of 95_test_vectors.md V-F2. -/
def fontDrawn : Decoder := after [0x09, 0x06, 0, 0, 0x0A, 0x05, 0x01, 0x01, 0x20, 0x01, 0x3F] Decoder.reset

-- 95_test_vectors.md V-F2.
set_option maxRecDepth 50000 in
theorem test_copyFont :
    fontDrawn.cell 601 = 0x55555A ∧ fontDrawn.cell 651 = 0xA55555 ∧ fontDrawn.cell 701 = 0xAAAAAA ∧
      fontDrawn.cell 1151 = 0x555555 ∧ fontDrawn.cell 1201 = 0 ∧ fontDrawn.dirty = [(51, true)] ∧
      fontDrawn.screenDirty = false := by decide
-- 95_test_vectors.md V-F1 (the last cell of the store) and W4 (x = 50).
set_option maxRecDepth 50000 in
theorem test_copyFont_edges :
    let on := [0x3F, 0x3F, 0x3F, 0x3F, 0x3F, 0x3F, 0x3F, 0x3F, 0x3F, 0x3F, 0x3F, 0x3F]
    (after ([0x09, 0x06, 0, 0, 0x01, 0x02, 0x11, 0x31] ++ on) Decoder.reset).cell 10799 = 0x111111 ∧
      after ([0x09, 0x06, 0, 0, 0x01, 0x02, 0x00, 0x32] ++ on) Decoder.reset = Decoder.reset := by decide
-- 95_test_vectors.md V-F3 and W6.
set_option maxRecDepth 50000 in
theorem test_xorFont :
    let once := after [0x09, 0x26, 0, 0, 0x0F, 0x00, 0x01, 0x01, 0x3F] fontDrawn
    once.cell 601 = 0xAAAAA5 ∧ once.cell 651 = 0xA55555 ∧
      (after [0x09, 0x26, 0, 0, 0x0F, 0x00, 0x01, 0x01, 0x3F] once).cell 601 = 0x55555A := by decide
-- 95_test_vectors.md V-F9 (the flag is set although no cell changes) and V-F5 (channel 2 is dropped).
set_option maxRecDepth 50000 in
theorem test_xorFont_flag :
    (after [0x09, 0x26, 0, 0, 0, 0, 0x01, 0x01, 0x3F] Decoder.reset).dirty = [(51, true)] ∧
      after [0x09, 0x26, 0, 0, 0x01, 0x20, 0x05, 0x05, 0x3F] Decoder.reset = Decoder.reset := by decide

/-! ## The scroll instructions -/

/-- Some cells of the pattern of 95_test_vectors.md 2.4, each holding `(Y << 8) | x`. -/
def pattern : Decoder :=
  Decoder.reset.withVram [(1, 0x000001), (48, 0x000030), (49, 0x000031), (599, 0x000B31), (600, 0x000C00), (601, 0x000C01),
    (649, 0x000C31), (10200, 0x00CC00), (10201, 0x00CC01)]

-- 95_test_vectors.md 2.4, SCROLL_PRESET 7, RIGHT, NONE.
set_option maxRecDepth 50000 in
theorem test_scrollPreset_right :
    let d := after [0x09, 0x14, 0, 0, 0x07, 0x10] pattern
    d.cell 0 = 0x777777 ∧ d.cell 2 = 1 ∧ d.cell 49 = 0x000030 ∧ d.cell 50 = 0x777777 ∧ d.screenDirty = true := by decide
-- 95_test_vectors.md 2.4, SCROLL_PRESET 7, NONE, UP.
set_option maxRecDepth 50000 in
theorem test_scrollPreset_up :
    let d := after [0x09, 0x14, 0, 0, 0x07, 0x00, 0x20] pattern
    d.cell 0 = 0x000C00 ∧ d.cell 1 = 0x000C01 ∧ d.cell 49 = 0x000C31 := by decide
-- 95_test_vectors.md 2.4, SCROLL_COPY LEFT, NONE and, of the last row, copy with hdir 3 and DOWN.
set_option maxRecDepth 50000 in
theorem test_scrollCopy :
    let d := after [0x09, 0x18, 0, 0, 0, 0x20] pattern
    let e := after [0x09, 0x18, 0, 0, 0x05, 0x30, 0x10] pattern
    d.cell 0 = 0x000001 ∧ d.cell 48 = 0x000031 ∧ e.cell 0 = 0x00CC00 ∧ e.cell 1 = 0x00CC01 := by decide
-- 95_test_vectors.md 2.4, SCROLL_COPY LEFT, UP.
set_option maxRecDepth 50000 in
theorem test_scrollCopy_both :
    (after [0x09, 0x18, 0, 0, 0, 0x20, 0x20] pattern).cell 0 = 0x000C01 := by decide

/-! ## The skip rows -/

-- 95_test_vectors.md V-D7 and V-D9.
theorem test_skipInst :
    after [0x09, 0x1C, 0, 0, 0x0F] redPalette = redPalette ∧ after [0x09, 0x38] redPalette = redPalette := by decide
-- 95_test_vectors.md V-D5.
theorem test_skipCmd : after [0x08, 0x01, 0, 0, 0x0F] redPalette = redPalette := by decide

/-! ## The commands -/

-- 95_test_vectors.md W8's second pack, then W3's: entry 0 changes, the border's entry 5 does not (41_palette_clut.md R127).
theorem test_decodeTo :
    ((coreAfter (holding [[0x09, 0x02, 0, 0, 0x05], [0x09, 0x1E, 0, 0, 0x3C, 0x0F]] [.command (.decodeTo 2)])).map fun d =>
      (d.borderIndex, d.borderDirty, d.screenDirty, d.colour 0, d.currentPack)) =
      some (5, false, true, ⟨0xFF, 0, 0xFF⟩, 2) := by decide
-- 95_test_vectors.md V-D2 and V-D4.
theorem test_decodeTo_length :
    outputsAfter (waiting [.command (.decodeTo 1)]) = [.decodeResult .insufficientInput] ∧
      outputsAfter (holding [[0]] [.command (.decodeTo 1)]) = [.decodeResult .ok] := by decide
-- 95_test_vectors.md V-D16: a backward seek to 0 is a reset.
theorem test_decodeTo_backward :
    coreAfter ((holding [[0x09, 0x02, 0, 0, 0x05]] [.command (.decodeTo 0)]).withCore (redPalette.withCurrentPack 1)) =
      some Decoder.reset := by decide
-- 95_test_vectors.md W1.
theorem test_reset : coreAfter ((waiting [.command .reset]).withCore (redPalette.withCurrentPack 7)) = some Decoder.reset := by
  decide
-- 95_test_vectors.md V-R2: only a ring block is dirty.
set_option maxRecDepth 50000 in
theorem test_render_ring :
    coreAfter ((waiting [.command .renderFrame]).withCore (markBlock 0 5 Decoder.reset)) = some (markBlock 0 5 Decoder.reset) ∧
      outputsAfter ((waiting [.command .renderFrame]).withCore (markBlock 0 5 Decoder.reset)) = [.renderResult false []] := by
  decide
-- 95_test_vectors.md V-R4, block (1,1): its bit of the mask; pixels (0,0) and (5,11) at offsets 0 and 12692; R, G, B, A ascending.
set_option maxRecDepth 50000 in
theorem test_render_block :
    let d := after [0x09, 0x06, 0, 0, 0x01, 0x00, 0x01, 0x01, 0x20, 0, 0, 0, 0, 0, 0, 0, 0, 0, 0, 0x01] redPalette
    outputsAfter ((waiting [.command .renderFrame]).withCore d) = [.renderResult false [(0, 0)]] ∧
      putPixel d 0 0 [] = [(0, 255), (1, 0), (2, 0), (3, 255)] ∧ putPixel d 1 0 [] = [(4, 0), (5, 0), (6, 0), (7, 255)] ∧
      putPixel d 5 11 [] = [(12692, 255), (12693, 0), (12694, 0), (12695, 255)] := by decide

/-! ## Witnesses: concrete values that meet every hypothesis of a statement together -/

/-- A font write to the last visible block on channel 1. -/
def edgeFont : FontOperands := ⟨1, 3, 0, 48, 16, Vector.replicate 12 0x3F⟩

/-- A font write to the last block of VRAM, in the offscreen ring. -/
def ringFont : FontOperands := ⟨0, 1, 2, 49, 17, Vector.replicate 12 0x3F⟩

/-- One BORDER_PRESET 5 pack, then one LOAD_CLUT_LO pack. -/
def twoPacks : List (List Byte) := [[0x09, 0x02, 0, 0, 0x05], [0x09, 0x1E, 0, 0, 0x3C, 0x0F]]

theorem witness_DecodeOfEncodeIsIdentity :
    (Instr.copyFont edgeFont).wellFormed = true ∧ (Instr.skipInst 0x3F).wellFormed = true ∧
      (Instr.skipCmd 0x3F).wellFormed = true := by decide

theorem witness_EveryPackDecodesWellFormed : (List.replicate 23 0#8).length < 24 ∧ ¬ (List.replicate 24 0#8).length < 24 := by
  decide

theorem witness_InstructionValueComparedWhole :
    let P := pack [0x09, 0x2E]
    ¬ (P[0].toNat % 64 = 9 ∧ P[1].toNat % 64 ∈ [1, 2, 6, 20, 24, 30, 31, 38]) := by decide

theorem witness_UnusedBytesAreNotRead :
    let P := pack [0x09, 0x01, 0x00, 0x00, 0x03]
    let Q := pack [0x09, 0x01, 0xAA, 0x55, 0x03, 0, 0, 0, 0, 0, 0, 0, 0, 0, 0, 0, 0, 0, 0, 0, 1, 2, 3, 4]
    P ≠ Q ∧ ∀ (n : Nat) (h : n < 24), n ≠ 2 → n ≠ 3 → n ≠ 20 → n ≠ 21 → n ≠ 22 → n ≠ 23 → P[n] = Q[n] := by decide

theorem witness_HighBitsAreIgnored :
    let P := pack [0x49, 0x81, 0x40, 0, 0xC3]
    let Q := pack [0x09, 0x01, 0x00, 0, 0x03]
    P ≠ Q ∧ ∀ (n : Nat) (h : n < 24), P[n].toNat % 64 = Q[n].toNat % 64 := by decide

theorem witness_PresetFieldFromBytes :
    (pack [0x09, 0x01, 0, 0, 0x3F])[0].toNat % 64 = 9 ∧ (pack [0x09, 0x01, 0, 0, 0x3F])[1].toNat % 64 = 1 ∧
      (pack [0xC9, 0xC2, 0, 0, 0x10])[0].toNat % 64 = 9 ∧ (pack [0xC9, 0xC2, 0, 0, 0x10])[1].toNat % 64 = 2 := by decide

theorem witness_ClutFieldsFromBytes :
    (pack [0x09, 0x1E])[0].toNat % 64 = 9 ∧ (pack [0x09, 0x1E])[1].toNat % 64 = 30 ∧
      (pack [0x09, 0x1F])[0].toNat % 64 = 9 ∧ (pack [0x09, 0x1F])[1].toNat % 64 = 31 ∧ 7 < 8 := by decide

theorem witness_FontFieldsFromBytes :
    (pack [0x09, 0x06])[0].toNat % 64 = 9 ∧ (pack [0x09, 0x06])[1].toNat % 64 = 6 ∧
      (pack [0x09, 0x26])[0].toNat % 64 = 9 ∧ (pack [0x09, 0x26])[1].toNat % 64 = 38 ∧ 11 < 12 := by decide

theorem witness_ScrollFieldsFromBytes :
    (∀ code ∈ [0, 1, 2, 3],
      let P := pack [0x09, 0x14, 0, 0, 7, BitVec.ofNat 8 (16 * code), BitVec.ofNat 8 (16 * code)]
      P[0].toNat % 64 = 9 ∧ P[1].toNat % 64 = 20 ∧ P[5].toNat / 16 % 4 = code ∧ P[6].toNat / 16 % 4 = code) ∧
    (pack [0x09, 0x18])[0].toNat % 64 = 9 ∧ (pack [0x09, 0x18])[1].toNat % 64 = 24 := by decide

theorem witness_CellIsBuiltLaneByLane : 0 < 6 ∧ 5 < 6 := by decide

theorem witness_MemoryPresetFillsVram : 0 < 10800 ∧ 10799 < 10800 ∧ 5 < 6 := by decide

/-- Entry 7 of either load, and an entry each load leaves alone, at both ends of the other half. -/
theorem witness_LoadClutWritesEntriesAndFlags :
    let cs : Vector Rgb4 8 := Vector.replicate 8 ⟨1, 2, 3⟩
    (Instr.loadClutLo cs = .loadClutLo cs ∧ 0 + 7 < 16 ∧ 0 + 8 ≤ 8 ∧ 0 + 8 ≤ 15) ∧
      (Instr.loadClutHi cs = .loadClutHi cs ∧ 8 + 7 < 16 ∧ 0 < 8 ∧ 7 < 8) := by decide

theorem witness_CopyFontWritesBlock : ringFont.ch.toNat ≤ 1 ∧ ringFont.x.toNat ≤ 49 ∧ ringFont.y.toNat ≤ 17 := by decide

theorem witness_CopyFontWritesBlock_other_cell :
    ∀ r < 12, 0 ≠ blockCell ringFont.x.toNat ringFont.y.toNat r := by decide

theorem witness_XorFontXorsBlock : edgeFont.ch.toNat ≤ 1 ∧ edgeFont.x.toNat ≤ 49 ∧ edgeFont.y.toNat ≤ 17 := by decide

theorem witness_XorFontXorsBlock_other_cell :
    ∀ r < 12, 10799 ≠ blockCell edgeFont.x.toNat edgeFont.y.toNat r := by decide

theorem witness_BadFontPackIsDropped :
    2 ≤ ({ edgeFont with ch := 2 } : FontOperands).ch.toNat ∧ 50 ≤ ({ edgeFont with x := 50 } : FontOperands).x.toNat ∧
      18 ≤ ({ edgeFont with y := 18 } : FontOperands).y.toNat := by decide

theorem witness_BlocksPartitionVram :
    49 ≤ 49 ∧ 17 ≤ 17 ∧ 11 < 12 ∧ 10799 < 10800 ∧ blockCell 49 17 11 = 10799 ∧ blockCell 0 0 0 = 0 := by decide

theorem witness_ScrollCopyRotates : 49 < 50 ∧ 215 < 216 ∧ 0 < 50 ∧ 0 < 216 := by decide

theorem witness_ScrollPresetShiftsAndFills :
    columnVacated .right 0 ∧ columnVacated .left 49 ∧ rowVacated .down 11 ∧ rowVacated .up 204 := by
  exact ⟨.inl ⟨rfl, rfl⟩, .inr ⟨rfl, rfl⟩, .inl ⟨rfl, by decide⟩, .inr ⟨rfl, by decide⟩⟩

theorem witness_ScrollPresetShiftsAndFills_kept :
    ¬ (columnVacated .right 1 ∨ rowVacated .down 12) ∧ ¬ (columnVacated .left 48 ∨ rowVacated .up 203) ∧
      ¬ (columnVacated .none 0 ∨ rowVacated .none 0) ∧ ¬ (columnVacated .h3 49 ∨ rowVacated .v3 215) := by
  simp [columnVacated, rowVacated]

theorem witness_SkippedPacksChangeNothing :
    (pack [0x08, 0x01])[0].toNat % 64 ≠ 9 ∧
      (pack [0x09, 0x1C])[1].toNat % 64 ∉ [1, 2, 6, 20, 24, 30, 31, 38] := by decide

theorem witness_XorFontTwiceRestores : ringFont.ch.toNat ≤ 1 ∧ ringFont.x.toNat ≤ 49 ∧ ringFont.y.toNat ≤ 17 := by decide

theorem witness_RepeatedPaletteAndPresetPacksAreIdempotent :
    (∃ cs, Instr.loadClutLo (Vector.replicate 8 ⟨1, 2, 3⟩) = .loadClutLo cs) ∧
      (∃ cs, Instr.loadClutHi (Vector.replicate 8 ⟨1, 2, 3⟩) = .loadClutHi cs) ∧
      (∃ c, Instr.memoryPreset 3 = .memoryPreset c) ∧ ∃ c, Instr.borderPreset 5 = .borderPreset c :=
  ⟨⟨_, rfl⟩, ⟨_, rfl⟩, ⟨_, rfl⟩, ⟨_, rfl⟩⟩

theorem witness_ScrollRotationsReturn : 49 < 50 ∧ 215 < 216 := by decide

theorem witness_PackReadsAndWritesSixElements :
    let s := (waiting []).withCore redPalette
    let s' := (waiting [.command .reset]).withCore (redPalette.withCurrentPack 7)
    s ≠ s' ∧ s.core.pal = s'.core.pal ∧ s.core.vram = s'.core.vram ∧ s.core.dirty = s'.core.dirty ∧
      s.core.screenDirty = s'.core.screenDirty ∧ s.core.borderDirty = s'.core.borderDirty ∧
      s.core.borderIndex = s'.core.borderIndex := by decide

theorem witness_PacksNeverClearFlags :
    let d := markBlock 49 17 ((redPalette.withScreenDirty true).withBorderDirty true)
    d.screenDirty = true ∧ d.borderDirty = true ∧ Memory.read flagUnlisted d.dirty 899 = true := by decide

/-- A font write changes the last cell of the store and leaves `screen_dirty` false. -/
theorem witness_ChangesAreCoveredByFlags :
    let t := (State.reset).withCore (coreEffect (.copyFont ringFont) Decoder.reset)
    exec (.copyFont ringFont) State.reset = .next t ∧ t.core.screenDirty = false ∧
      t.core.cell (215 * 50 + 49) ≠ State.reset.core.cell (215 * 50 + 49) := by
  refine ⟨rfl, ?_⟩
  decide

theorem witness_DecodeForwardIsTheFold :
    let s := holding twoPacks [.command (.decodeTo 2), .command .renderFrame]
    s.pending = [.command (.decodeTo 2), .command .renderFrame] ∧ 24 * (2 : PackIndex).toNat ≤ s.env.stream.length ∧
      s.core.currentPack.toNat ≤ (2 : PackIndex).toNat := by decide

theorem witness_BackwardSeekReplaysFromReset :
    let s := (holding twoPacks [.command (.decodeTo 1)]).withCore (redPalette.withCurrentPack 2)
    s.pending = [.command (.decodeTo 1)] ∧ 24 * (1 : PackIndex).toNat ≤ s.env.stream.length ∧
      (1 : PackIndex).toNat < s.core.currentPack.toNat := by decide

theorem witness_BackwardSeekReplaysFromReset_smaller :
    let s := (holding twoPacks [.command (.decodeTo 0)]).withCore (redPalette.withCurrentPack 2)
    s.pending = [.command (.decodeTo 0)] ∧
      ∃ t, step s = .next t ∧ t.core.currentPack.toNat < s.core.currentPack.toNat :=
  ⟨rfl, _, rfl, by decide⟩

theorem witness_InsufficientInputChangesNothing :
    let s := (holding twoPacks [.command (.decodeTo 3)]).withCore (redPalette.withCurrentPack 9)
    s.pending = [.command (.decodeTo 3)] ∧ s.env.stream.length < 24 * (3 : PackIndex).toNat := by decide

theorem witness_DecodeToSameTargetIsIdempotent :
    (holding twoPacks [.command (.decodeTo 2), .command (.decodeTo 2)]).pending =
      .command (.decodeTo 2) :: .command (.decodeTo 2) :: [] := by decide

theorem witness_ForwardDecodesCompose :
    let s := holding twoPacks []
    s.core.currentPack.toNat ≤ (1 : PackIndex).toNat ∧ (1 : PackIndex).toNat ≤ (2 : PackIndex).toNat ∧
      24 * (2 : PackIndex).toNat ≤ s.env.stream.length := by decide

/-- The streams differ in pack 0, which lies before the cursor. -/
theorem witness_DecodeReadsOnlyItsRange :
    let s := (holding twoPacks []).withCore (redPalette.withCurrentPack 1)
    let st := PackStream.ofBytes ((pack [0x09, 0x01]).toList ++ (pack [0x09, 0x1E, 0, 0, 0x3C, 0x0F]).toList)
    st ≠ s.env.stream ∧ s.core.currentPack.toNat ≤ (2 : PackIndex).toNat ∧
      24 * (2 : PackIndex).toNat ≤ s.env.stream.length ∧ 24 * (2 : PackIndex).toNat ≤ st.length ∧
      ∀ a < 48, 24 ≤ a → st.byteAt a = s.env.stream.byteAt a := by decide

theorem witness_ResetZeroesTheCore :
    ((waiting [.command .reset]).withCore redPalette).pending = .command .reset :: [] := by decide

theorem witness_FetchReadsThePackBytes :
    let bytes := (pack [0x09, 0x01, 0, 0, 0x03]).toList
    (waiting [.supplyStream bytes]).pending = .supplyStream bytes :: [] ∧ 23 < 24 ∧ 24 * (0 + 1) ≤ bytes.length := by decide

theorem witness_StepRunsTheDecodedInstruction :
    let s := holding twoPacks [.command (.decodeTo 1)]
    s.core.currentPack.toNat + 1 < 2 ^ 32 ∧ 24 * (s.core.currentPack.toNat + 1) ≤ s.env.stream.length ∧
      s.pending = .command (.decodeTo (s.core.currentPack + 1)) :: [] ∧
      decodePack (s.env.stream.fetchPack s.core.currentPack.toNat) = .borderPreset 5 ∧
      ∃ t, exec (.borderPreset 5) { s with pending := [] } = .next t := by
  refine ⟨by decide, by decide, by decide, by decide, ?_⟩
  exact ⟨_, exec_eq _ _⟩

theorem witness_PlacedWordRunsNext : State.reset.core.currentPack.toNat + 1 < 2 ^ 32 := by decide

theorem witness_IdleHoldsState : ((waiting []).withCore redPalette).pending = [] := by decide

theorem witness_NoOtherException :
    outputsAfter (waiting [.command (.decodeTo 1)]) =
      (waiting [.command (.decodeTo 1)]).outputs ++ [.decodeResult .insufficientInput] := by decide

theorem witness_TransitionIsDeterminedByCoreCommandEnv :
    let s := (waiting [.command .renderFrame]).withCore redPalette
    let s' := ((waiting [.command .renderFrame, .command .reset]).withCore redPalette).emit .resetDone
    s ≠ s' ∧ s.pending = .command .renderFrame :: [] ∧ s'.pending = .command .renderFrame :: [.command .reset] ∧
      s.core = s'.core ∧ s.env = s'.env := by decide

theorem witness_FullRenderWritesEveryPixel :
    let s := (waiting [.command .renderFrame]).withCore (redPalette.withScreenDirty true)
    let s' := (waiting [.command .renderFrame]).withCore (redPalette.withBorderDirty true)
    (s.pending = .command .renderFrame :: [] ∧ s.core.screenDirty = true) ∧
      (s'.pending = .command .renderFrame :: [] ∧ s'.core.borderDirty = true) ∧ 191 < 192 ∧ 1 ≤ 48 ∧ 5 < 6 := by decide

/-- The last visible block and a ring block are dirty. -/
theorem witness_PartialRenderWritesDirtyBlocks :
    let s := (waiting [.command .renderFrame]).withCore (markBlock 49 17 (markBlock 48 16 redPalette))
    s.pending = .command .renderFrame :: [] ∧ s.core.screenDirty = false ∧ s.core.borderDirty = false ∧
      VisibleDirty s.core 48 16 ∧ s.core.blockFlag 49 17 = true ∧ 11 < 12 ∧ 5 < 6 := by
  refine ⟨rfl, rfl, rfl, ⟨by decide, by decide, by decide, by decide, by decide⟩, by decide, by decide, by decide⟩

/-- Byte 0 of the framebuffer lies in no dirty block of that state. -/
theorem witness_PartialRenderWritesDirtyBlocks_other_byte :
    ∀ bx by', VisibleDirty (markBlock 48 16 redPalette) bx by' → ¬ InBlock bx by' 0 := by
  rintro bx by' ⟨h1, h2, h3, h4, h5⟩ ⟨p, hp, r, hr, c, hc, e⟩
  unfold Decoder.blockFlag at h5
  rw [markBlock_flag] at h5
  split at h5
  · unfold pixelOffset at e; omega
  · cases h5

theorem witness_RenderIsPureAndIdempotent :
    ((waiting [.command .renderFrame, .command .renderFrame]).withCore (markBlock 1 1 redPalette)).pending =
      .command .renderFrame :: .command .renderFrame :: [] := by decide

theorem witness_NothingDirtyWritesNothing :
    let s := (waiting [.command .renderFrame]).withCore redPalette
    s.pending = .command .renderFrame :: [] ∧ s.core.screenDirty = false ∧ s.core.borderDirty = false ∧
      ∀ bx by', ¬ VisibleDirty s.core bx by' :=
  ⟨rfl, rfl, rfl, fun _ _ h => Bool.noConfusion h.2.2.2.2⟩

theorem witness_PartialAndFullRenderAgree :
    let s := State.reset.withCore redPalette
    (∃ t, exec (.copyFont edgeFont) s = .next t) ∧ (∃ t, exec (.xorFont edgeFont) s = .next t) ∧ edgeFont.ch.toNat ≤ 1 ∧
      1 ≤ edgeFont.x.toNat ∧ edgeFont.x.toNat ≤ 48 ∧ 1 ≤ edgeFont.y.toNat ∧ edgeFont.y.toNat ≤ 16 ∧
      s.core.screenDirty = false ∧ s.core.borderDirty = false := by
  refine ⟨⟨_, exec_eq _ _⟩, ⟨_, exec_eq _ _⟩, ?_⟩
  decide

/-- The last byte of the framebuffer lies in that block. -/
theorem witness_PartialAndFullRenderAgree_byte : InBlock edgeFont.x.toNat edgeFont.y.toNat 221183 :=
  ⟨5, by decide, 11, by decide, 3, by decide, by decide⟩

theorem witness_BorderIsNotRendered :
    ((waiting [.command .renderFrame]).withCore (redPalette.withBorderDirty true)).pending = .command .renderFrame :: [] := by
  decide

theorem witness_StepKeepsCanonical :
    let s := (holding twoPacks [.command (.decodeTo 2)]).withCore fontDrawn
    s.Canonical ∧ ∃ t, step s = .next t := by
  refine ⟨⟨by decide, by decide, by decide, by decide⟩, _, step_action rfl⟩

theorem witness_StepKeepsPaletteExpanded :
    let s := (holding twoPacks [.command (.decodeTo 2)]).withCore redPalette
    PaletteExpanded s.core ∧ ∃ t, step s = .next t := by
  refine ⟨?_, _, step_action rfl⟩
  unfold PaletteExpanded
  decide

theorem witness_StepKeepsDecodedPrefix :
    let s := holding twoPacks [.command (.decodeTo 2)]
    DecodedPrefix s ∧ (∀ bytes rest, s.pending ≠ .supplyStream bytes :: rest) ∧ ∃ t, step s = .next t := by
  refine ⟨⟨rfl, rfl, rfl⟩, ?_, _, step_action rfl⟩
  intro bytes rest h
  cases h

/-- A framebuffer the host has filled with the picture of the reset core, opaque black. -/
def blackFb : Memory Byte := renderFullFb Decoder.reset

theorem witness_black (X Y : Nat) (hX : X < 288) (hY : Y < 192) : PixelShows blackFb X Y ⟨0, 0, 0⟩ := by
  have h := pixelShows_of_outByte Decoder.reset (renderFullFb Decoder.reset) (X := X) (Y := Y) hX fun k hk => by
    rw [fbByte_renderFullFb, if_pos (by unfold pixelOffset; omega)]
  have e : outColour Decoder.reset X Y = ⟨0, 0, 0⟩ := by simp [outColour, Decoder.colour, Decoder.reset, Colour.black]
  rwa [e] at h

/-- The picture is shown and no flag is set; a forward DECODE_TO, a RENDER_FRAME and a new stream keep it. -/
theorem witness_StepKeepsFramebufferCovered :
    let s := (holding twoPacks [.command (.decodeTo 2)]).withFb blackFb
    Covered s ∧ s.core.screenDirty = false ∧ (∀ a rest, s.pending = a :: rest → KeepsPicture s a) ∧ ∃ t, step s = .next t := by
  refine ⟨.inr fun X hX Y hY => .inr ?_, rfl, ?_, _, step_action rfl⟩
  · have e : outColour Decoder.reset X Y = ⟨0, 0, 0⟩ := by simp [outColour, Decoder.colour, Decoder.reset, Colour.black]
    have h := witness_black X Y hX hY
    rw [← e] at h
    exact h
  · intro a rest h
    obtain ⟨rfl, rfl⟩ := List.cons.inj h
    exact Nat.zero_le _

theorem witness_FullRenderAndBlackFillCover :
    let s := (waiting [.command .renderFrame]).withCore (redPalette.withScreenDirty true)
    let s' := ((waiting [.command .reset]).withCore redPalette).withFb blackFb
    (s.pending = .command .renderFrame :: [] ∧ s.core.screenDirty = true ∧ ∃ t, step s = .next t) ∧
      s'.pending = .command .reset :: [] ∧ (∀ Xo < 288, ∀ Yo < 192, PixelShows s'.env.fb Xo Yo ⟨0, 0, 0⟩) ∧
      ∃ t, step s' = .next t :=
  ⟨⟨rfl, rfl, _, step_action rfl⟩, rfl, fun X hX Y hY => witness_black X Y hX hY, _, step_action rfl⟩

end Sys2Proof.Tests
end

section
/-! The decoder row by row: which bytes select which instruction (30_encoding.md R74), the bytes its fields are read from (R73),
and the colour entries of a CLUT pack (R81). -/

namespace Sys2Proof.Machine

/-! ## The rows of the decoder -/

/-- What a pack decodes to, row by row, with the command and the instruction value that select the row as numbers (R74). -/
inductive DecodesTo (P : Pack) : Instr → Prop
  | memoryPreset : P[0].toNat % 64 = 9 → P[1].toNat % 64 = 1 → DecodesTo P (.memoryPreset (indexField P))
  | borderPreset : P[0].toNat % 64 = 9 → P[1].toNat % 64 = 2 → DecodesTo P (.borderPreset (indexField P))
  | copyFont : P[0].toNat % 64 = 9 → P[1].toNat % 64 = 6 → DecodesTo P (.copyFont (fontFields P))
  | scrollPreset : P[0].toNat % 64 = 9 → P[1].toNat % 64 = 20 →
      DecodesTo P (.scrollPreset (indexField P) (hdirField P) (vdirField P))
  | scrollCopy : P[0].toNat % 64 = 9 → P[1].toNat % 64 = 24 →
      DecodesTo P (.scrollCopy (indexField P) (hdirField P) (vdirField P))
  | loadClutLo : P[0].toNat % 64 = 9 → P[1].toNat % 64 = 30 → DecodesTo P (.loadClutLo (clutFields P))
  | loadClutHi : P[0].toNat % 64 = 9 → P[1].toNat % 64 = 31 → DecodesTo P (.loadClutHi (clutFields P))
  | xorFont : P[0].toNat % 64 = 9 → P[1].toNat % 64 = 38 → DecodesTo P (.xorFont (fontFields P))
  | skipInst : P[0].toNat % 64 = 9 → P[1].toNat % 64 ∉ [1, 2, 6, 20, 24, 30, 31, 38] → DecodesTo P (.skipInst (instOf P))
  | skipCmd : P[0].toNat % 64 ≠ 9 → DecodesTo P (.skipCmd (cmdOf P))

theorem decodePack_decodesTo (P : Pack) : DecodesTo P (decodePack P) := by
  unfold decodePack
  simp only [ne_eq, cmdOf_eq_iff, instOf_eq_iff]
  split_ifs with hcmd h1 h2 h6 h20 h24 h30 h31 h38
  · exact .memoryPreset hcmd h1
  · exact .borderPreset hcmd h2
  · exact .copyFont hcmd h6
  · exact .scrollPreset hcmd h20
  · exact .scrollCopy hcmd h24
  · exact .loadClutLo hcmd h30
  · exact .loadClutHi hcmd h31
  · exact .xorFont hcmd h38
  · exact .skipInst hcmd (by simpa using ⟨h1, h2, h6, h20, h24, h30, h31, h38⟩)
  · exact .skipCmd hcmd

theorem DecodesTo.decodePack_eq {P : Pack} {i : Instr} (h : DecodesTo P i) : decodePack P = i := by
  cases h with
  | memoryPreset hcmd hinst | borderPreset hcmd hinst | copyFont hcmd hinst | scrollPreset hcmd hinst
  | scrollCopy hcmd hinst | loadClutLo hcmd hinst | loadClutHi hcmd hinst | xorFont hcmd hinst =>
    simp [decodePack, cmdOf_eq_iff, instOf_eq_iff, hcmd, hinst]
  | skipInst hcmd hinst =>
    simp only [List.mem_cons, List.not_mem_nil, or_false, not_or] at hinst
    simp [decodePack, cmdOf_eq_iff, instOf_eq_iff, hcmd, hinst]
  | skipCmd hcmd => simp [decodePack, cmdOf_eq_iff, hcmd]

@[simp] theorem exec_skipInst (inst : Symbol) (s : State) : exec (.skipInst inst) s = .next s := rfl
@[simp] theorem exec_skipCmd (cmd : Symbol) (s : State) : exec (.skipCmd cmd) s = .next s := rfl

/-- Settles O3: by the decoder's rows; a row's mnemonic is no other row's, and the two skip rows have no effect. -/
theorem instructionValueComparedWhole : Obligations.InstructionValueComparedWhole := by
  unfold Obligations.InstructionValueComparedWhole
  intro P cmd inst
  have hrow := decodePack_decodesTo P
  generalize decodePack P = i at hrow ⊢
  cases hrow with
  | memoryPreset hcmd hinst | borderPreset hcmd hinst | copyFont hcmd hinst | scrollPreset hcmd hinst
  | scrollCopy hcmd hinst | loadClutLo hcmd hinst | loadClutHi hcmd hinst | xorFont hcmd hinst =>
    simp [cmd, inst, Instr.mnemonic, hcmd, hinst]
  | skipInst hcmd hinst =>
    simp only [List.mem_cons, List.not_mem_nil, or_false, not_or] at hinst
    simp [cmd, inst, Instr.mnemonic, hcmd, hinst]
  | skipCmd hcmd => simp [cmd, Instr.mnemonic, hcmd]

/-! ## The bytes the decoder reads -/

/-- The packs agree in the command, the instruction value and the sixteen data bytes (R71, R73). -/
def AgreeOnUsedBytes (P Q : Pack) : Prop :=
  ∀ (n : Nat) (_ : n < 24), n < 2 ∨ 4 ≤ n ∧ n < 20 → P[n] = Q[n]

section
variable {P Q : Pack} (h : AgreeOnUsedBytes P Q)
include h

theorem AgreeOnUsedBytes.cmdOf_eq : cmdOf P = cmdOf Q := by
  unfold cmdOf
  rw [h 0 (by decide) (by decide)]

theorem AgreeOnUsedBytes.instOf_eq : instOf P = instOf Q := by
  unfold instOf
  rw [h 1 (by decide) (by decide)]

theorem AgreeOnUsedBytes.indexField_eq : indexField P = indexField Q := by
  unfold indexField
  rw [h 4 (by decide) (by decide)]

theorem AgreeOnUsedBytes.hdirField_eq : hdirField P = hdirField Q := by
  unfold hdirField
  rw [h 5 (by decide) (by decide)]

theorem AgreeOnUsedBytes.vdirField_eq : vdirField P = vdirField Q := by
  unfold vdirField
  rw [h 6 (by decide) (by decide)]

theorem AgreeOnUsedBytes.fontFields_eq : fontFields P = fontFields Q := by
  have hrow : ∀ r : Fin 12, P[8 + r.val] = Q[8 + r.val] := fun r => h _ (by omega) (by omega)
  unfold fontFields
  simp only [hrow, h 4 (by decide) (by decide), h 5 (by decide) (by decide), h 6 (by decide) (by decide),
    h 7 (by decide) (by decide)]

theorem AgreeOnUsedBytes.clutFields_eq : clutFields P = clutFields Q := by
  have hfst : ∀ i : Fin 8, P[4 + 2 * i.val] = Q[4 + 2 * i.val] := fun i => h _ (by omega) (by omega)
  have hsnd : ∀ i : Fin 8, P[5 + 2 * i.val] = Q[5 + 2 * i.val] := fun i => h _ (by omega) (by omega)
  unfold clutFields
  simp only [hfst, hsnd]

theorem AgreeOnUsedBytes.decodePack_eq : decodePack P = decodePack Q := by
  unfold decodePack
  rw [h.cmdOf_eq, h.instOf_eq, h.indexField_eq, h.hdirField_eq, h.vdirField_eq, h.fontFields_eq, h.clutFields_eq]

end

/-- Settles O5: every field of the decoder is read from the used bytes. -/
theorem unusedBytesAreNotRead : Obligations.UnusedBytesAreNotRead := by
  unfold Obligations.UnusedBytesAreNotRead
  intro P Q h
  have hused : AgreeOnUsedBytes P Q := fun n hn hu =>
    h n hn (by omega) (by omega) (by omega) (by omega) (by omega) (by omega)
  exact hused.decodePack_eq

/-! ## The colour entries of a CLUT pack -/

theorem clutField_red_toNat (b0 b1 : Byte) : (clutField b0 b1).red.toNat = b0.toNat / 4 % 16 := by
  simp [clutField, BitVec.extractLsb'_toNat, Nat.shiftRight_eq_div_pow]

theorem clutField_green_toNat (b0 b1 : Byte) :
    (clutField b0 b1).green.toNat = b0.toNat % 4 * 4 + b1.toNat / 16 % 4 := by
  have hlow : b1.toNat / 16 % 4 < 2 ^ 2 := Nat.mod_lt _ (by decide)
  simp only [clutField]
  rw [BitVec.toNat_append, code_toNat, ← Nat.shiftLeft_add_eq_or_of_lt hlow, Nat.shiftLeft_eq]
  simp

theorem clutField_blue_toNat (b0 b1 : Byte) : (clutField b0 b1).blue.toNat = b1.toNat % 16 := by
  simp [clutField]

theorem clutFields_getElem (P : Pack) (i : Nat) (h : i < 8) :
    (clutFields P)[i] = clutField P[4 + 2 * i] P[5 + 2 * i] := by
  simp [clutFields]

/-- Settles O8: the entries are `clutFields`, whose components are arithmetic on the two bytes of a pair. -/
theorem clutFieldsFromBytes : Obligations.ClutFieldsFromBytes := by
  unfold Obligations.ClutFieldsFromBytes
  intro P hcmd
  refine ⟨clutFields P, fun hlo => (DecodesTo.loadClutLo hcmd hlo).decodePack_eq,
    fun hhi => (DecodesTo.loadClutHi hcmd hhi).decodePack_eq, ?_⟩
  intro i hi b0 b1 c
  refine ⟨?_, ?_, ?_, expand17_toNat _, expand17_toNat _, expand17_toNat _⟩
  · rw [clutFields_getElem, clutField_red_toNat]
  · rw [clutFields_getElem, clutField_green_toNat]
  · rw [clutFields_getElem, clutField_blue_toNat]

end Sys2Proof.Machine
end

section
/-! The dispatcher: the two skip rows (40_decoder_dispatch.md R107, R108) and the cursor of a DECODE_TO (R102, R104). -/

namespace Sys2Proof.Machine

/-! ## The skip rows -/

/-- Settles O22: by the decoder's rows, each condition on the bytes selects one of the two skip instructions. -/
theorem skippedPacksChangeNothing : Obligations.SkippedPacksChangeNothing := by
  unfold Obligations.SkippedPacksChangeNothing
  refine ⟨exec_skipCmd, exec_skipInst, fun P s hskip => ?_⟩
  by_cases hcmd : P[0].toNat % 64 = 9
  · have hinst := hskip.resolve_left (not_not_intro hcmd)
    rw [(DecodesTo.skipInst hcmd hinst).decodePack_eq, exec_skipInst]
  · rw [(DecodesTo.skipCmd hcmd).decodePack_eq, exec_skipCmd]

/-! ## Backward seeks -/

/-- A batch from the reset core replays the stream from pack 0. -/
theorem batchCore_reset (st : PackStream) (target : PackIndex) :
    batchCore st target Decoder.reset = (replay st target.toNat).withCurrentPack target := rfl

/-- The core after an accepted DECODE_TO behind the cursor (R104). -/
theorem actionCore_decodeTo_backward {d : Decoder} {e : Env} {target : PackIndex}
    (hlen : 24 * target.toNat ≤ e.stream.length) (hback : target.toNat < d.currentPack.toNat) :
    actionCore (.command (.decodeTo target)) d e = (replay e.stream target.toNat).withCurrentPack target := by
  rw [actionCore, if_neg (Nat.not_lt.2 hlen), if_pos hback, batchCore_reset]

/-- The cursor after a DECODE_TO: kept when the length test rejects it, and the target otherwise (R102). -/
theorem actionCore_decodeTo_currentPack (d : Decoder) (e : Env) (target : PackIndex) :
    (actionCore (.command (.decodeTo target)) d e).currentPack =
      if e.stream.length < 24 * target.toNat then d.currentPack else target := by
  rw [actionCore]
  split
  · rfl
  · exact batchCore_currentPack _ _ _

/-- The output of an accepted DECODE_TO (R102). -/
theorem actionOutputs_decodeTo_accepted (d : Decoder) {e : Env} {target : PackIndex}
    (hlen : 24 * target.toNat ≤ e.stream.length) :
    actionOutputs (.command (.decodeTo target)) d e = [.decodeResult .ok] := by
  rw [actionOutputs, if_neg (Nat.not_lt.2 hlen)]

/-- Settles O32: a backward batch starts from the reset core; and a smaller cursor is not the old one, so the length test passed and
the cursor is the target. -/
theorem backwardSeekReplaysFromReset : Obligations.BackwardSeekReplaysFromReset := by
  unfold Obligations.BackwardSeekReplaysFromReset
  intro s target rest hp
  rw [step_action hp]
  constructor
  · intro hlen hback
    rw [actionCore_decodeTo_backward hlen hback, actionOutputs_decodeTo_accepted _ hlen]
    rfl
  · rintro _ ⟨⟩ hsmaller
    rw [actionCore_decodeTo_currentPack] at hsmaller
    split at hsmaller
    case isTrue => exact absurd hsmaller (Nat.lt_irrefl _)
    case isFalse haccepted => exact ⟨Nat.not_lt.1 haccepted, hsmaller⟩

end Sys2Proof.Machine
end

section
/-! The one exception, INSUFFICIENT_INPUT: which actions put it out (60_exceptions.md R200, R201). -/

namespace Sys2Proof.Machine

/-- Among all actions and commands, only a DECODE_TO that fails the length test puts out INSUFFICIENT_INPUT (R200). -/
theorem actionOutputs_eq_insufficientInput_iff (a : HostAction) (d : Decoder) (e : Env) :
    actionOutputs a d e = [.decodeResult .insufficientInput] ↔
      ∃ target, a = .command (.decodeTo target) ∧ e.stream.length < 24 * target.toNat := by
  cases a with
  | command c =>
    cases c with
    | reset => simp [actionOutputs]
    | decodeTo target => simp [actionOutputs]
    | renderFrame =>
      simp only [actionOutputs, renderOutput]
      split <;> simp
  | supplyStream bytes => simp [actionOutputs]
  | supplyFrameBuffer written => simp [actionOutputs]

/-- Settles O43: an idle step puts out nothing, and what an action puts out decides which action it was. -/
theorem noOtherException : Obligations.NoOtherException := by
  unfold Obligations.NoOtherException
  intro s
  cases hp : s.pending with
  | nil =>
    refine ⟨s, step_idle hp, fun hout => ?_⟩
    simp at hout
  | cons a rest =>
    refine ⟨_, step_action hp, fun hout => ?_⟩
    obtain ⟨target, rfl, hshort⟩ :=
      (actionOutputs_eq_insufficientInput_iff a s.core s.env).1 (List.append_cancel_left hout)
    exact ⟨target, rest, rfl, hshort⟩

end Sys2Proof.Machine
end

section
/-! RESET: what ResetState holds, element by element (10_state.md R34), and the step that reaches it (70_reset_and_hazards.md R220). -/

namespace Sys2Proof.Machine

/-! ## The elements of ResetState -/

@[simp] theorem Decoder.reset_pal_getElem (i : Nat) (h : i < 16) : Decoder.reset.pal[i] = Colour.black :=
  Vector.getElem_replicate h

@[simp] theorem Decoder.reset_cell (j : Nat) : Decoder.reset.cell j = 0 := rfl

@[simp] theorem Decoder.reset_blockFlag (x y : Nat) : Decoder.reset.blockFlag x y = false := rfl

/-! ## The step -/

/-- Whatever the core was, a RESET leaves it in ResetState, keeps the environment and puts out one `resetDone` (R220, R224). -/
theorem step_reset {s : State} {rest : List HostAction} (h : s.pending = .command .reset :: rest) :
    step s = .next ⟨Decoder.reset, s.env, rest, s.outputs ++ [.resetDone]⟩ :=
  step_action h

/-- Settles O37: the step ends in ResetState, whose memories list nothing, so every cell and every flag reads as its reset value. -/
theorem resetZeroesTheCore : Obligations.ResetZeroesTheCore := by
  unfold Obligations.ResetZeroesTheCore
  intro s rest hp
  exact ⟨_, step_reset hp, Decoder.reset_pal_getElem, Decoder.reset_cell, Decoder.reset_blockFlag,
    rfl, rfl, rfl, rfl, rfl, rfl, rfl⟩

end Sys2Proof.Machine
end

section
/-! The canonical encoding read back field by field (30_encoding.md R88), the first matching row of the opcode table (R75), the low
six bits that carry a byte's meaning (R72), and each format's fields as numbers (R76 to R79). -/

namespace Sys2Proof.Machine

/-! ## The fields of an encoded pack -/

/-- A field of a data byte of an encoded pack lies in the data symbol that the byte carries. -/
theorem packOf_field (cmd inst : Symbol) (data : Vector Symbol 16) (n i w : Nat) (hn : 4 ≤ n ∧ n < 20) (hw : i + w ≤ 6) :
    (packOf cmd inst data)[n].extractLsb' i w = data[n - 4].extractLsb' i w := by
  rw [packOf_data cmd inst data n hn, byteOf_extract _ _ hw]

/-! A data symbol of two bits above four, as formats PRESET, FONT, SCROLL and CLUT lay them out. -/

theorem symbol_high (a : BitVec 2) (b : BitVec 4) : BitVec.extractLsb' (n := 6) 4 2 (a ++ b) = a :=
  BitVec.extractLsb'_append_eq_left

theorem symbol_low (a : BitVec 2) (b : BitVec 4) : BitVec.extractLsb' (n := 6) 0 4 (a ++ b) = b :=
  BitVec.extractLsb'_append_eq_right

@[simp] theorem indexField_packOf_presetData (cmd inst : Symbol) (c : PaletteIndex) :
    indexField (packOf cmd inst (presetData c)) = c := by
  rw [indexField, packOf_field _ _ _ _ _ _ (by decide) (by decide)]
  simp [presetData, symbol_low]

@[simp] theorem indexField_packOf_scrollData (cmd inst : Symbol) (fill : PaletteIndex) (h : HDir) (v : VDir) :
    indexField (packOf cmd inst (scrollData fill h v)) = fill := by
  rw [indexField, packOf_field _ _ _ _ _ _ (by decide) (by decide)]
  simp [scrollData, symbol_low]

@[simp] theorem hdirField_packOf_scrollData (cmd inst : Symbol) (fill : PaletteIndex) (h : HDir) (v : VDir) :
    hdirField (packOf cmd inst (scrollData fill h v)) = h := by
  rw [hdirField, packOf_field _ _ _ _ _ _ (by decide) (by decide)]
  simp [scrollData, symbol_high]

@[simp] theorem vdirField_packOf_scrollData (cmd inst : Symbol) (fill : PaletteIndex) (h : HDir) (v : VDir) :
    vdirField (packOf cmd inst (scrollData fill h v)) = v := by
  rw [vdirField, packOf_field _ _ _ _ _ _ (by decide) (by decide)]
  simp [scrollData, symbol_high]

/-- The row bitmaps of a FONT pack are its data symbols 4 to 15 (R78). -/
theorem fontData_row (f : FontOperands) (r : Nat) (hr : r < 12) : (fontData f)[8 + r - 4] = f.rows[r] := by
  have h0 : ¬ 8 + r - 4 = 0 := by omega
  have h1 : ¬ 8 + r - 4 = 1 := by omega
  have h2 : ¬ 8 + r - 4 = 2 := by omega
  have h3 : ¬ 8 + r - 4 = 3 := by omega
  have hrow : 8 + r - 4 - 4 = r := by omega
  simp [fontData, h0, h1, h2, h3, hrow]

theorem FontOperands.ext_fields {f g : FontOperands} (hch : f.ch = g.ch) (hfg : f.fg = g.fg) (hbg : f.bg = g.bg)
    (hx : f.x = g.x) (hy : f.y = g.y) (hrows : f.rows = g.rows) : f = g := by
  cases f; cases g; simp_all

@[simp] theorem fontFields_packOf_fontData (cmd inst : Symbol) (f : FontOperands) :
    fontFields (packOf cmd inst (fontData f)) = f := by
  apply FontOperands.ext_fields
  case hch =>
    have e : f.ch.extractLsb' 2 2 ++ f.ch.extractLsb' 0 2 = f.ch := BitVec.extractLsb'_append_extractLsb'
    simpa [fontFields, packOf_field, fontData, symbol_high] using e
  case hfg => simp [fontFields, packOf_field, fontData, symbol_low]
  case hbg => simp [fontFields, packOf_field, fontData, symbol_low]
  case hx => simp [fontFields, packOf_field, fontData]
  case hy =>
    have e : BitVec.extractLsb' (n := 6) 0 5 (0#1 ++ f.y) = f.y := BitVec.extractLsb'_append_eq_right
    simpa [fontFields, packOf_field, fontData] using e
  case hrows =>
    refine Vector.ext fun r hr => ?_
    simp only [fontFields, Vector.getElem_ofFn]
    rw [packOf_field _ _ _ _ _ _ (by omega) (by decide), fontData_row, BitVec.extractLsb'_eq_self]

/-- Entry `i` of a CLUT pack is its data symbols `2i` and `2i + 1` (R77). -/
theorem clutData_even (cs : Vector Rgb4 8) (i : Nat) (hi : i < 8) :
    (clutData cs)[4 + 2 * i - 4] = cs[i].red ++ cs[i].green.extractLsb' 2 2 := by
  simp [clutData]

theorem clutData_odd (cs : Vector Rgb4 8) (i : Nat) (hi : i < 8) :
    (clutData cs)[5 + 2 * i - 4] = cs[i].green.extractLsb' 0 2 ++ cs[i].blue := by
  have hdiv : (5 + 2 * i - 4) / 2 = i := by omega
  have hmod : (5 + 2 * i - 4) % 2 = 1 := by omega
  simp [clutData, hdiv, hmod]

@[simp] theorem clutFields_packOf_clutData (cmd inst : Symbol) (cs : Vector Rgb4 8) :
    clutFields (packOf cmd inst (clutData cs)) = cs := by
  refine Vector.ext fun i hi => ?_
  have hred : BitVec.extractLsb' (n := 6) 2 4 (cs[i].red ++ cs[i].green.extractLsb' 2 2) = cs[i].red :=
    BitVec.extractLsb'_append_eq_left
  have hgreenHigh : BitVec.extractLsb' (n := 6) 0 2 (cs[i].red ++ cs[i].green.extractLsb' 2 2) =
      cs[i].green.extractLsb' 2 2 := BitVec.extractLsb'_append_eq_right
  have hgreen : cs[i].green.extractLsb' 2 2 ++ cs[i].green.extractLsb' 0 2 = cs[i].green :=
    BitVec.extractLsb'_append_extractLsb'
  simp only [clutFields, clutField, Vector.getElem_ofFn]
  rw [packOf_field _ _ _ _ _ _ (by omega) (by decide), packOf_field _ _ _ _ _ _ (by omega) (by decide),
    packOf_field _ _ _ _ _ _ (by omega) (by decide), packOf_field _ _ _ _ _ _ (by omega) (by decide),
    clutData_even cs i hi, clutData_odd cs i hi, hred, hgreenHigh, symbol_high, symbol_low, hgreen]

/-! ## Decode of encode -/

/-- The canonical encoding selects the instruction's row, and the row's fields read back (R74, R88). -/
theorem decodePack_encode (i : Instr) (hi : i.wellFormed = true) : decodePack (encode i) = i := by
  cases i with
  | memoryPreset c | borderPreset c | copyFont f | xorFont f | scrollPreset fill h v | scrollCopy fill h v
  | loadClutLo cs | loadClutHi cs => simp [encode, decodePack]
  | skipInst inst =>
    have hne : inst ≠ 0x01#6 ∧ inst ≠ 0x02#6 ∧ inst ≠ 0x06#6 ∧ inst ≠ 0x14#6 ∧ inst ≠ 0x18#6 ∧ inst ≠ 0x1E#6 ∧
        inst ≠ 0x1F#6 ∧ inst ≠ 0x26#6 := by
      simpa [Instr.wellFormed, recognisedInsts] using hi
    simp [encode, decodePack, hne]
  | skipCmd cmd =>
    have hne : cmd ≠ Config.cmdTvGraphics := by simpa [Instr.wellFormed] using hi
    simp [encode, decodePack, hne]

/-- Settles O1: each field of an encoded pack reads back, so the pack's row gives the instruction; and a byte sequence that begins
with a pack is read as that pack. -/
theorem decodeOfEncodeIsIdentity : Obligations.DecodeOfEncodeIsIdentity := by
  unfold Obligations.DecodeOfEncodeIsIdentity
  intro i hi
  refine ⟨decodePack_encode i hi, fun rest => ?_⟩
  rw [decode_append, decodePack_encode i hi]

/-! ## Every pack decodes -/

/-- The two skip rows stand for values that no other row takes (R75). -/
theorem decodePack_wellFormed (P : Pack) : (decodePack P).wellFormed = true := by
  have hrow := decodePack_decodesTo P
  generalize decodePack P = i at hrow ⊢
  cases hrow with
  | memoryPreset | borderPreset | copyFont | scrollPreset | scrollCopy | loadClutLo | loadClutHi | xorFont => rfl
  | skipInst _ hinst =>
    simpa [Instr.wellFormed, recognisedInsts, instOf_eq_iff] using hinst
  | skipCmd hcmd => simpa [Instr.wellFormed, cmdOf_eq_iff] using hcmd

theorem decode_eq_error_iff (bytes : List Byte) : decode bytes = .error .truncatedPack ↔ bytes.length < 24 := by
  unfold decode
  split
  case isTrue h => simp [h]
  case isFalse h => simpa using h

/-- Settles O2: by the decoder's rows, and by its one test of the length. -/
theorem everyPackDecodesWellFormed : Obligations.EveryPackDecodesWellFormed :=
  ⟨decodePack_wellFormed, decode_eq_error_iff⟩

/-! ## The opcode table -/

/-- The key of a command and an instruction value, bits 7:6 of both bytes clear. -/
def keyOf (cmd inst : Symbol) : BitVec 16 := byteOf cmd ++ byteOf inst

theorem cmdOf_eq_ofNat (P : Pack) : cmdOf P = BitVec.ofNat 6 (P[0].toNat % 64) := by
  rw [← cmdOf_toNat, BitVec.ofNat_toNat, BitVec.setWidth_eq]

theorem instOf_eq_ofNat (P : Pack) : instOf P = BitVec.ofNat 6 (P[1].toNat % 64) := by
  rw [← instOf_toNat, BitVec.ofNat_toNat, BitVec.setWidth_eq]

/-- The masks of the table read bits 5:0 of the two bytes alone (R75). -/
theorem packKey_and (P : Pack) (m : BitVec 16) (hm : 0x3F3F#16 &&& m = m) :
    packKey P &&& m = keyOf (cmdOf P) (instOf P) &&& m := by
  have hbyte : ∀ b : Byte, b &&& 0x3F#8 = byteOf (b.extractLsb' 0 6) := by decide
  have hkey : packKey P &&& 0x3F3F#16 = keyOf (cmdOf P) (instOf P) := by
    unfold packKey keyOf cmdOf instOf
    rw [← hbyte, ← hbyte, ← BitVec.and_append]
    rfl
  rw [← hkey, BitVec.and_assoc, hm]

/-- The first matching row depends on the command and the instruction value alone. -/
theorem firstMatchingRow_eq (P : Pack) :
    firstMatchingRow P = opcodeRows.find? fun row => keyOf (cmdOf P) (instOf P) &&& row.mask == row.pattern := by
  have hmasks : ∀ row ∈ opcodeRows, 0x3F3F#16 &&& row.mask = row.mask := by decide
  refine List.find?_congr fun row hrow => ?_
  rw [packKey_and P row.mask (hmasks row hrow)]

/-- The rows that name a command match packs of that command alone. -/
theorem cmd_of_row_matches (cmd inst : Symbol) {m p : BitVec 16} (hm : m &&& 0x3F00#16 = 0x3F00#16)
    (hp : p &&& 0x3F00#16 = 0x0900#16) (h : keyOf cmd inst &&& m = p) : cmd = Config.cmdTvGraphics := by
  have hkey : keyOf cmd inst &&& 0x3F00#16 = keyOf cmd 0 &&& 0x3F00#16 := by
    have hbytes : 0x3F00#16 = 0x3F#8 ++ 0x00#8 := by decide
    unfold keyOf
    rw [hbytes, BitVec.and_append, BitVec.and_append, BitVec.and_zero, BitVec.and_zero]
  have hcmd : ∀ c : Symbol, keyOf c 0 &&& 0x3F00#16 = 0x0900#16 → c = Config.cmdTvGraphics := by decide
  apply hcmd
  rw [← hkey, ← hp, ← h, BitVec.and_assoc, hm]

/-- Packs of another command match none of the nine rows before SKIP_CMD. -/
theorem find_row_of_skipCmd (cmd inst : Symbol) (hcmd : cmd ≠ Config.cmdTvGraphics) :
    (opcodeRows.find? fun row => keyOf cmd inst &&& row.mask == row.pattern) = some ⟨"SKIP_CMD", 0x0000, 0x0000⟩ := by
  have hsplit : opcodeRows = opcodeRows.take 9 ++ [⟨"SKIP_CMD", 0x0000, 0x0000⟩] := rfl
  have hrows : ∀ row ∈ opcodeRows.take 9, row.mask &&& 0x3F00#16 = 0x3F00#16 ∧ row.pattern &&& 0x3F00#16 = 0x0900#16 := by
    decide
  have hnone : ((opcodeRows.take 9).find? fun row => keyOf cmd inst &&& row.mask == row.pattern) = none := by
    refine List.find?_eq_none.2 fun row hrow hmatch => ?_
    obtain ⟨hm, hp⟩ := hrows row hrow
    exact hcmd (cmd_of_row_matches cmd inst hm hp (by simpa using hmatch))
  rw [hsplit, List.find?_append, hnone]
  simp

/-- No instruction value but the eight recognised ones matches a row before SKIP_INST (R74). -/
theorem find_row_of_skipInst : ∀ inst : Symbol, inst.toNat ∉ [1, 2, 6, 20, 24, 30, 31, 38] →
    (opcodeRows.find? fun row => keyOf Config.cmdTvGraphics inst &&& row.mask == row.pattern) =
      some ⟨"SKIP_INST", 0x0900, 0x3F00⟩ := by decide

/-- Settles O4: a pack's key is its command and instruction value, and row by row these two select the table's row. -/
theorem firstMatchingRowIsDecoded : Obligations.FirstMatchingRowIsDecoded := by
  unfold Obligations.FirstMatchingRowIsDecoded
  intro P
  rw [firstMatchingRow_eq]
  have hrow := decodePack_decodesTo P
  generalize decodePack P = i at hrow ⊢
  cases hrow with
  | memoryPreset hcmd hinst | borderPreset hcmd hinst | copyFont hcmd hinst | scrollPreset hcmd hinst
  | scrollCopy hcmd hinst | loadClutLo hcmd hinst | loadClutHi hcmd hinst | xorFont hcmd hinst =>
    rw [cmdOf_eq_ofNat, instOf_eq_ofNat, hcmd, hinst]
    rfl
  | skipInst hcmd hinst =>
    rw [cmdOf_eq_ofNat, hcmd, find_row_of_skipInst _ (by rwa [instOf_toNat])]
    rfl
  | skipCmd hcmd =>
    rw [find_row_of_skipCmd _ _ (mt (cmdOf_eq_iff P _).1 hcmd)]
    rfl

/-! ## The bits a byte carries -/

/-- Bytes with the same low six bits hold the same fields (R72). -/
theorem extract_congr_of_mod {b c : Byte} (h : b.toNat % 64 = c.toNat % 64) {i w : Nat} (hw : i + w ≤ 6) :
    b.extractLsb' i w = c.extractLsb' i w := by
  have hlow : b.extractLsb' 0 6 = c.extractLsb' 0 6 := by
    apply BitVec.eq_of_toNat_eq
    simpa using h
  have hfield : ∀ x : Byte, x.extractLsb' i w = (x.extractLsb' 0 6).extractLsb' i w := fun x => by
    rw [BitVec.extractLsb'_extractLsb'_of_le hw]
  rw [hfield b, hfield c, hlow]

/-- The decoder reads fields of the low six bits of the bytes alone. -/
theorem decodePack_congr {P Q : Pack}
    (h : ∀ (n : Nat) (_ : n < 24) (i w : Nat), i + w ≤ 6 → P[n].extractLsb' i w = Q[n].extractLsb' i w) :
    decodePack P = decodePack Q := by
  have hfont : fontFields P = fontFields Q := by
    unfold fontFields
    simp [h]
  have hclut : clutFields P = clutFields Q := by
    unfold clutFields clutField
    simp [h]
  unfold decodePack cmdOf instOf indexField hdirField vdirField
  simp [h, hfont, hclut]

/-- Settles O6: equal low six bits give equal fields, and the decoder reads nothing else. -/
theorem highBitsAreIgnored : Obligations.HighBitsAreIgnored := by
  unfold Obligations.HighBitsAreIgnored
  intro P Q h
  exact decodePack_congr fun n hn i w hw => extract_congr_of_mod (h n hn) hw

/-! ## The fields as numbers -/

/-- Settles O7: both preset rows carry `indexField`. -/
theorem presetFieldFromBytes : Obligations.PresetFieldFromBytes := by
  unfold Obligations.PresetFieldFromBytes
  intro P hcmd
  exact ⟨indexField P, indexField_toNat P, fun hinst => (DecodesTo.memoryPreset hcmd hinst).decodePack_eq,
    fun hinst => (DecodesTo.borderPreset hcmd hinst).decodePack_eq⟩

/-- The channel of a font pack: two bits of byte 4 above two bits of byte 5 (R78, R82). -/
theorem fontFields_ch_toNat (P : Pack) :
    (fontFields P).ch.toNat = P[4].toNat / 16 % 4 * 4 + P[5].toNat / 16 % 4 := by
  have hlow : P[5].toNat / 16 % 4 < 2 ^ 2 := Nat.mod_lt _ (by decide)
  simp only [fontFields]
  rw [BitVec.toNat_append, code_toNat, code_toNat, ← Nat.shiftLeft_add_eq_or_of_lt hlow, Nat.shiftLeft_eq]

/-- Settles O9: the operands are `fontFields`, each one arithmetic on its byte. -/
theorem fontFieldsFromBytes : Obligations.FontFieldsFromBytes := by
  unfold Obligations.FontFieldsFromBytes
  intro P hcmd
  refine ⟨fontFields P, fun hinst => (DecodesTo.copyFont hcmd hinst).decodePack_eq,
    fun hinst => (DecodesTo.xorFont hcmd hinst).decodePack_eq, fontFields_ch_toNat P, ?_, ?_, ?_, ?_, fun r hr => ?_⟩
  all_goals simp [fontFields]

/-- The direction codes, as the numbers the two bits of a byte give (R84). -/
theorem hdirField_eq {P : Pack} {v : BitVec 2} (h : P[5].toNat / 16 % 4 = v.toNat) : hdirField P = HDir.ofCode v := by
  rw [hdirField, BitVec.eq_of_toNat_eq ((code_toNat P[5]).trans h)]

theorem vdirField_eq {P : Pack} {v : BitVec 2} (h : P[6].toNat / 16 % 4 = v.toNat) : vdirField P = VDir.ofCode v := by
  rw [vdirField, BitVec.eq_of_toNat_eq ((code_toNat P[6]).trans h)]

/-- Settles O10: the operands are the scroll fields, and each code stands for one direction. -/
theorem scrollFieldsFromBytes : Obligations.ScrollFieldsFromBytes := by
  unfold Obligations.ScrollFieldsFromBytes
  intro P hcmd
  exact ⟨indexField P, hdirField P, vdirField P, fun hinst => (DecodesTo.scrollPreset hcmd hinst).decodePack_eq,
    fun hinst => (DecodesTo.scrollCopy hcmd hinst).decodePack_eq, indexField_toNat P,
    hdirField_eq (v := 0), hdirField_eq (v := 1), hdirField_eq (v := 2), hdirField_eq (v := 3),
    vdirField_eq (v := 0), vdirField_eq (v := 1), vdirField_eq (v := 2), vdirField_eq (v := 3)⟩

/-- Settles O11, by evaluation of the six packs. -/
theorem specPacksDecode : Obligations.SpecPacksDecode := by
  unfold Obligations.SpecPacksDecode
  decide

end Sys2Proof.Machine
end

section
/-! What every pack does, whatever it is: which elements it reads and writes (40_decoder_dispatch.md R106), that it only sets flags
(60_exceptions.md R210), that flags cover what it changes (10_state.md R23, R25), and what it keeps of the invariants of R35. -/

namespace Sys2Proof.Machine

/-! ## Totality and the six elements -/

/-- Settles O27: every meaning answers a next state. -/
theorem packContentsNeverRaise : Obligations.PackContentsNeverRaise :=
  fun P s => ⟨_, exec_eq (decodePack P) s⟩

/-- Cores that agree in all elements but the cursor. -/
theorem eq_withCurrentPack {d e : Decoder} (hpal : d.pal = e.pal) (hvram : d.vram = e.vram) (hdirty : d.dirty = e.dirty)
    (hsd : d.screenDirty = e.screenDirty) (hbd : d.borderDirty = e.borderDirty) (hbi : d.borderIndex = e.borderIndex) :
    e = d.withCurrentPack e.currentPack := by
  cases d; cases e; simp_all [Decoder.withCurrentPack]

/-- Settles O28: a pack takes no notice of the cursor, and the two cores differ in the cursor alone. -/
theorem packReadsAndWritesSixElements : Obligations.PackReadsAndWritesSixElements := by
  unfold Obligations.PackReadsAndWritesSixElements
  intro i s s' hpal hvram hdirty hsd hbd hbi
  have hcore := eq_withCurrentPack hpal hvram hdirty hsd hbd hbi
  refine ⟨coreEffect i s.core, coreEffect_currentPack i s.core, exec_eq i s, ?_⟩
  rw [exec_eq, hcore, coreEffect_withCurrentPack]
  rfl

/-! ## Flags -/

/-- A change of the core that clears no flag, and that the flags it leaves set cover (10_state.md R23, R25; 60_exceptions.md R210). -/
structure CoveredChange (d e : Decoder) : Prop where
  screenDirty : d.screenDirty = true → e.screenDirty = true
  borderDirty : d.borderDirty = true → e.borderDirty = true
  flags : ∀ k, Memory.read flagUnlisted d.dirty k = true → Memory.read flagUnlisted e.dirty k = true
  pal : e.screenDirty = false → e.pal = d.pal
  cells : e.screenDirty = false → ∀ x < 50, ∀ Y < 216,
    e.cell (Y * 50 + x) ≠ d.cell (Y * 50 + x) → e.blockFlag x (Y / 12) = true

theorem CoveredChange.refl (d : Decoder) : CoveredChange d d :=
  ⟨id, id, fun _ => id, fun _ => rfl, fun _ _ _ _ _ hne => absurd rfl hne⟩

/-- A change that sets `screen_dirty` is covered whatever it draws. -/
theorem CoveredChange.of_screenDirty {d e : Decoder} (hsd : e.screenDirty = true) (hbd : e.borderDirty = d.borderDirty)
    (hdirty : e.dirty = d.dirty) : CoveredChange d e where
  screenDirty _ := hsd
  borderDirty h := hbd.trans h
  flags k h := by rw [hdirty]; exact h
  pal h := absurd hsd (by simp [h])
  cells h := absurd hsd (by simp [h])

theorem borderPreset_covered (c : PaletteIndex) (d : Decoder) : CoveredChange d (borderPreset c d) where
  screenDirty h := by simpa using h
  borderDirty h := by simp [borderPreset_borderDirty, h]
  flags k h := by simpa using h
  pal _ := borderPreset_pal c d
  cells _ x _ Y _ hne := absurd (by simp only [Decoder.cell, borderPreset_vram]) hne

/-- The coordinates of a cell of block `(x, y)` (R143). -/
theorem blockCell_eq_iff {x y r X Y : Nat} (hx : x ≤ 49) (hX : X < 50) :
    Y * 50 + X = blockCell x y r ↔ X = x ∧ Y = 12 * y + r := by
  unfold blockCell; omega

theorem fontBlock_covered (xor : Bool) (f : FontOperands) (d : Decoder) (hx : f.x.toNat ≤ 49) :
    CoveredChange d (fontBlock xor f d) where
  screenDirty h := by simpa using h
  borderDirty h := by simpa using h
  flags k h := by rw [fontBlock_dirty, read_write]; split <;> simp [h]
  pal _ := fontBlock_pal xor f d
  cells _ x hx' Y _ hne := by
    by_cases hin : ∃ r < 12, Y * 50 + x = blockCell f.x.toNat f.y.toNat r
    · obtain ⟨r, hr, hcell⟩ := hin
      obtain ⟨rfl, rfl⟩ := (blockCell_eq_iff hx hx').1 hcell
      have hrow : (12 * f.y.toNat + r) / 12 = f.y.toNat := by omega
      rw [Decoder.blockFlag, fontBlock_dirty, read_write, hrow, if_pos rfl]
    · push Not at hin
      exact absurd (fontBlock_cell_other xor f d _ hin) hne

theorem fontWrite_covered (xor : Bool) (f : FontOperands) (d : Decoder) : CoveredChange d (fontWrite xor f d) := by
  rcases fontWrite_cases xor f d with hdropped | ⟨_, hx, _, happlied⟩
  · rw [hdropped]; exact .refl d
  · rw [happlied]; exact fontBlock_covered xor f d hx

theorem loadEntries_covered (cs : List Rgb4) (j : PaletteIndex) (d : Decoder) (h : j.toNat + cs.length ≤ 16) :
    CoveredChange d (loadEntries cs j d) where
  screenDirty hsd := (loadEntries_screenDirty cs j d h).2 (.inl hsd)
  borderDirty hbd := (loadEntries_borderDirty cs j d h).2 (.inl hbd)
  flags k hk := by simpa using hk
  pal hsd := by
    refine pal_ext fun i => ?_
    by_contra hne
    have := (loadEntries_screenDirty cs j d h).2 (.inr ⟨i, hne⟩)
    simp [hsd] at this
  cells _ x _ Y _ hne := absurd (by simp only [Decoder.cell, loadEntries_vram]) hne

/-- Every pack's change is covered by the flags. -/
theorem coreEffect_covered (i : Instr) (d : Decoder) : CoveredChange d (coreEffect i d) := by
  cases i with
  | memoryPreset c => exact .of_screenDirty (memoryPreset_screenDirty c d) (memoryPreset_borderDirty c d) (memoryPreset_dirty c d)
  | borderPreset c => exact borderPreset_covered c d
  | copyFont f => exact fontWrite_covered false f d
  | scrollPreset fill h v =>
    exact .of_screenDirty (scroll_screenDirty ..) (scroll_borderDirty ..) (scroll_dirty ..)
  | scrollCopy fill h v =>
    exact .of_screenDirty (scroll_screenDirty ..) (scroll_borderDirty ..) (scroll_dirty ..)
  | loadClutLo cs => exact loadEntries_covered cs.toList 0 d (by simp)
  | loadClutHi cs => exact loadEntries_covered cs.toList 8 d (by simp)
  | xorFont f => exact fontWrite_covered true f d
  | skipInst _ | skipCmd _ => exact .refl d

/-- Settles O29: every pack's change is a covered one, which clears no flag. -/
theorem packsNeverClearFlags : Obligations.PacksNeverClearFlags := by
  unfold Obligations.PacksNeverClearFlags
  intro i s
  have hchange := coreEffect_covered i s.core
  exact ⟨_, exec_eq i s, hchange.screenDirty, hchange.borderDirty, hchange.flags⟩

/-- Settles O30: every pack's change is a covered one. -/
theorem changesAreCoveredByFlags : Obligations.ChangesAreCoveredByFlags := by
  unfold Obligations.ChangesAreCoveredByFlags
  intro i s
  have hchange := coreEffect_covered i s.core
  exact ⟨_, exec_eq i s, fun hsd => ⟨hchange.pal hsd, hchange.cells hsd⟩⟩

/-! ## What every action keeps -/

/-- A predicate of the core that reset establishes and that packs, the cursor's moves and renders keep, every action keeps. -/
theorem actionCore_keeps (p : Decoder → Prop) (hreset : p Decoder.reset) (hpack : ∀ i d, p d → p (coreEffect i d))
    (hcursor : ∀ d v, p d → p (d.withCurrentPack v)) (hrender : ∀ d, p d → p (renderCore d)) (a : HostAction) (d : Decoder)
    (e : Env) (hd : p d) : p (actionCore a d e) := by
  cases a with
  | command c =>
    cases c with
    | reset => exact hreset
    | decodeTo target =>
      simp only [actionCore]
      split
      · exact hd
      · refine hcursor _ _ (foldl_applyPack_keeps p hpack _ _ ?_)
        split
        · exact hreset
        · exact hd
    | renderFrame => exact hrender d hd
  | supplyStream bytes => exact hd
  | supplyFrameBuffer written => exact hd

/-! ## The palette -/

/-- Every pack leaves a palette entry as it was or loads an expanded colour there (R127, R128). -/
theorem coreEffect_colour (i : Instr) (d : Decoder) (j : PaletteIndex) :
    (coreEffect i d).colour j = d.colour j ∨ ∃ c, (coreEffect i d).colour j = colourOf c := by
  have hsame : (coreEffect i d).pal = d.pal → (coreEffect i d).colour j = d.colour j := fun h => by
    simp only [Decoder.colour, h]
  have hload : ∀ (cs : Vector Rgb4 8) (k : PaletteIndex), k.toNat + 8 ≤ 16 →
      (loadEntries cs.toList k d).colour j = d.colour j ∨ ∃ c, (loadEntries cs.toList k d).colour j = colourOf c := by
    intro cs k hk
    rw [loadEntries_colour _ _ _ _ (by simpa using hk)]
    split
    · exact .inr ⟨_, rfl⟩
    · exact .inl rfl
  cases i with
  | memoryPreset c => exact .inl (hsame (memoryPreset_pal c d))
  | borderPreset c => exact .inl (hsame (borderPreset_pal c d))
  | copyFont f => exact .inl (hsame (fontWrite_pal false f d))
  | scrollPreset fill h v => exact .inl (hsame (scroll_pal ..))
  | scrollCopy fill h v => exact .inl (hsame (scroll_pal ..))
  | loadClutLo cs => exact hload cs 0 (by decide)
  | loadClutHi cs => exact hload cs 8 (by decide)
  | xorFont f => exact .inl (hsame (fontWrite_pal true f d))
  | skipInst _ | skipCmd _ => exact .inl rfl

theorem coreEffect_paletteExpanded (i : Instr) (d : Decoder) (h : PaletteExpanded d) : PaletteExpanded (coreEffect i d) := by
  intro j
  rcases coreEffect_colour i d j with hsame | ⟨c, hload⟩
  · rw [hsame]; exact h j
  · simp [hload, colourOf, expand17_toNat]

theorem reset_paletteExpanded : PaletteExpanded Decoder.reset := by
  unfold PaletteExpanded
  decide

/-- Settles O54: a loaded channel is a component times 17, and nothing but a load or a reset writes the palette. -/
theorem stepKeepsPaletteExpanded : Obligations.StepKeepsPaletteExpanded := by
  unfold Obligations.StepKeepsPaletteExpanded
  intro s t hs hstep
  obtain ⟨_, rfl⟩ | ⟨a, rest, _, rfl⟩ := step_cases hstep
  · exact hs
  · refine actionCore_keeps PaletteExpanded reset_paletteExpanded coreEffect_paletteExpanded (fun _ _ => id) ?_ a _ _ hs
    intro d hd
    simpa only [PaletteExpanded, Decoder.colour, renderCore_pal] using hd

/-! ## The canonical form -/

theorem actionEnv_stream_wf (a : HostAction) (d : Decoder) {e : Env}
    (h : Memory.wf e.stream.length (some streamUnlisted) e.stream.cells = true) :
    Memory.wf (actionEnv a d e).stream.length (some streamUnlisted) (actionEnv a d e).stream.cells = true := by
  cases a with
  | command c => cases c <;> exact h
  | supplyStream bytes => exact ofBytes_wf bytes
  | supplyFrameBuffer written => exact h

theorem actionEnv_fb_wf (a : HostAction) (d : Decoder) {e : Env} (h : Memory.wf 221184 none e.fb = true) :
    Memory.wf 221184 none (actionEnv a d e).fb = true := by
  cases a with
  | command c =>
    cases c with
    | reset | decodeTo target => exact h
    | renderFrame => exact renderFb_wf d e.fb h
  | supplyStream bytes => exact h
  | supplyFrameBuffer written => exact suppliedFrameBuffer_wf written

/-- Settles O52: the core's memories are kept by every pack and every render, the environment's by every action. -/
theorem stepKeepsCanonical : Obligations.StepKeepsCanonical := by
  unfold Obligations.StepKeepsCanonical
  rintro s t ⟨hvram, hdirty, hstream, hfb⟩ hstep
  obtain ⟨_, rfl⟩ | ⟨a, rest, _, rfl⟩ := step_cases hstep
  · exact ⟨hvram, hdirty, hstream, hfb⟩
  · have hcore : CoreCanonical (actionCore a s.core s.env) :=
      actionCore_keeps CoreCanonical reset_canonical (fun i _ => coreEffect_canonical i) (fun _ _ => id)
        (fun _ => renderCore_canonical) a _ _ ⟨hvram, hdirty⟩
    exact ⟨hcore.1, hcore.2, actionEnv_stream_wf a s.core hstream, actionEnv_fb_wf a s.core hfb⟩

/-- Settles O53: every memory lists nothing. -/
theorem resetIsCanonical : Obligations.ResetIsCanonical :=
  ⟨wf_nil _ _, wf_nil _ _, wf_nil _ _, wf_nil _ _⟩

/-! ## The packs before the cursor -/

/-- The two cores hold the same palette, VRAM and border index. -/
def SamePicture (d e : Decoder) : Prop := d.pal = e.pal ∧ d.vram = e.vram ∧ d.borderIndex = e.borderIndex

theorem fontWrite_vram_congr (xor : Bool) (f : FontOperands) {d e : Decoder} (h : d.vram = e.vram) :
    (fontWrite xor f d).vram = (fontWrite xor f e).vram := by
  have hrows : ∀ (rs : List (Fin 12)) (d e : Decoder), d.vram = e.vram →
      (rs.foldl (fontRow xor f) d).vram = (rs.foldl (fontRow xor f) e).vram := by
    intro rs
    induction rs with
    | nil => exact fun _ _ h => h
    | cons r rs ih =>
      intro d e h
      refine ih _ _ ?_
      simp only [fontRow, Decoder.setCell, Decoder.cell, withVram_vram, h]
  unfold fontWrite
  split
  · exact h
  · split
    · exact h
    · unfold fontBlock markBlock
      rw [withDirty_vram, withDirty_vram]
      exact hrows _ _ _ h

theorem loadEntries_pal_congr (cs : List Rgb4) (j : PaletteIndex) {d e : Decoder} (h : d.pal = e.pal)
    (hlen : j.toNat + cs.length ≤ 16) : (loadEntries cs j d).pal = (loadEntries cs j e).pal := by
  refine pal_ext fun i => ?_
  rw [loadEntries_colour _ _ _ _ hlen, loadEntries_colour _ _ _ _ hlen]
  simp only [Decoder.colour, h]

/-- What a pack leaves of palette, VRAM and border index depends on these three alone. -/
theorem SamePicture.coreEffect {d e : Decoder} (h : SamePicture d e) (i : Instr) :
    SamePicture (coreEffect i d) (coreEffect i e) := by
  obtain ⟨hpal, hvram, hbi⟩ := h
  cases i with
  | memoryPreset c => simp [SamePicture, hpal, hbi]
  | borderPreset c => simp [SamePicture, hpal, hvram]
  | copyFont f => simp [SamePicture, hpal, hbi, fontWrite_vram_congr false f hvram]
  | scrollPreset fill h v => simp [SamePicture, hpal, hvram, hbi]
  | scrollCopy fill h v => simp [SamePicture, hpal, hvram, hbi]
  | loadClutLo cs => exact ⟨loadEntries_pal_congr cs.toList 0 hpal (by simp), by simpa using hvram, by simpa using hbi⟩
  | loadClutHi cs => exact ⟨loadEntries_pal_congr cs.toList 8 hpal (by simp), by simpa using hvram, by simpa using hbi⟩
  | xorFont f => simp [SamePicture, hpal, hbi, fontWrite_vram_congr true f hvram]
  | skipInst _ | skipCmd _ => exact ⟨hpal, hvram, hbi⟩

theorem SamePicture.foldl {d e : Decoder} (h : SamePicture d e) (Ps : List Pack) :
    SamePicture (Ps.foldl applyPack d) (Ps.foldl applyPack e) := by
  induction Ps generalizing d e with
  | nil => exact h
  | cons P Ps ih =>
    rw [List.foldl_cons, List.foldl_cons, applyPack_eq, applyPack_eq]
    exact ih (h.coreEffect _)

/-- Replaying up to a later pack goes on from the replay so far. -/
theorem replay_add (st : PackStream) (n m : Nat) : replay st (n + m) = (packsOf st n m).foldl applyPack (replay st n) := by
  unfold replay
  rw [packsOf_append, List.foldl_append, Nat.zero_add]

/-- A batch forward from a core that shows the replay up to its cursor shows the replay up to the target. -/
theorem batchCore_samePicture {st : PackStream} {target : PackIndex} {d : Decoder} (hforward : d.currentPack.toNat ≤ target.toNat)
    (h : SamePicture d (replay st d.currentPack.toNat)) : SamePicture (batchCore st target d) (replay st target.toNat) := by
  have hsplit : target.toNat = d.currentPack.toNat + (target.toNat - d.currentPack.toNat) := by omega
  have hfold := h.foldl (packsOf st d.currentPack.toNat (target.toNat - d.currentPack.toNat))
  rw [← replay_add, ← hsplit] at hfold
  exact hfold

/-- Every action that keeps the stream keeps `DecodedPrefix`. -/
theorem action_decodedPrefix (a : HostAction) (d : Decoder) (e : Env) (ha : ∀ bytes, a ≠ .supplyStream bytes)
    (h : SamePicture d (replay e.stream d.currentPack.toNat)) :
    SamePicture (actionCore a d e) (replay (actionEnv a d e).stream (actionCore a d e).currentPack.toNat) := by
  cases a with
  | command c =>
    cases c with
    | reset => exact ⟨rfl, rfl, rfl⟩
    | decodeTo target =>
      simp only [actionCore, actionEnv]
      split
      · exact h
      · rw [batchCore_currentPack]
        refine batchCore_samePicture ?_ ?_
        · split
          · exact Nat.zero_le _
          · omega
        · split
          · exact ⟨rfl, rfl, rfl⟩
          · exact h
    | renderFrame =>
      simp only [actionCore, actionEnv, SamePicture, renderCore_pal, renderCore_vram, renderCore_borderIndex,
        renderCore_currentPack]
      exact h
  | supplyStream bytes => exact absurd rfl (ha bytes)
  | supplyFrameBuffer written => exact h

/-- Settles O55: a forward batch extends the replay, a backward one is a replay, and no other action touches palette, VRAM, border
index or cursor but RESET, after which the replay is of no packs. -/
theorem stepKeepsDecodedPrefix : Obligations.StepKeepsDecodedPrefix := by
  unfold Obligations.StepKeepsDecodedPrefix
  refine ⟨⟨rfl, rfl, rfl⟩, fun s t hs hstream hstep => ?_⟩
  obtain ⟨_, rfl⟩ | ⟨a, rest, hp, rfl⟩ := step_cases hstep
  · exact hs
  · refine action_decodedPrefix a s.core s.env ?_ hs
    rintro bytes rfl
    exact hstream bytes rest hp

end Sys2Proof.Machine
end

section
/-! The renderer: both paths pixel by pixel (43_render.md R157 to R161), its purity (R163), and the cover of the framebuffer by the
flags (R167). -/

namespace Sys2Proof.Machine

/-! ## The step -/

theorem step_renderFrame {s : State} {rest : List HostAction} (h : s.pending = .command .renderFrame :: rest) :
    step s = .next ⟨renderCore s.core, { s.env with fb := renderFb s.core s.env.fb }, rest,
      s.outputs ++ [renderOutput s.core]⟩ :=
  step_action h

/-! ## The full-frame path -/

theorem renderFullFb_shows (d : Decoder) {X Y : Nat} (hX : X < 288) (hY : Y < 192) :
    PixelShows (renderFullFb d) X Y (outColour d X Y) :=
  pixelShows_of_outByte d _ hX fun k hk => by
    rw [fbByte_renderFullFb, if_pos (by unfold pixelOffset; omega)]

/-- Settles O46: the buffer holds `outByte` at every offset, whose four values in a pixel are its colour and alpha. -/
theorem fullRenderWritesEveryPixel : Obligations.FullRenderWritesEveryPixel := by
  unfold Obligations.FullRenderWritesEveryPixel
  intro s rest hp hflags
  refine ⟨renderFullFb s.core, [], ?_, fun k => rfl, fun Y hY cx h1 h48 p hpx => ?_⟩
  · rw [step_renderFrame hp, renderCore_full _ hflags, renderFb_full _ _ hflags, renderOutput_full _ hflags]
    rfl
  · rw [← outColour_block s.core Y h1 hpx]
    exact renderFullFb_shows s.core (by omega) hY

/-! ## The block-partial path -/

/-- The block of byte offset `o`, by coordinates (R159). -/
theorem inBlock_iff {bx by' o : Nat} (h1 : 1 ≤ bx) (h48 : bx ≤ 48) (hy : 1 ≤ by') :
    InBlock bx by' o ↔ o / 4 % 288 / 6 + 1 = bx ∧ o / 1152 / 12 + 1 = by' := by
  constructor
  · rintro ⟨p, hp, r, hr, c, hc, rfl⟩
    obtain ⟨hX, hY, _⟩ := pixel_of_byte (X := 6 * (bx - 1) + p) (Y := 12 * (by' - 1) + r) (k := c) (by omega) hc
    omega
  · rintro ⟨hX, hY⟩
    refine ⟨o / 4 % 288 % 6, by omega, o / 1152 % 12, by omega, o % 4, by omega, ?_⟩
    unfold pixelOffset
    omega

/-- The partial path writes the bytes of the dirty visible blocks, and no other byte (R159, R160). -/
theorem fbByte_partial (d : Decoder) (fb : Memory Byte) (o : Nat) :
    (VisibleDirty d (o / 4 % 288 / 6 + 1) (o / 1152 / 12 + 1) →
      fbByte ((dirtyVisibleBlocks d).foldl (renderBlock d) fb) o = some (outByte d o)) ∧
    (¬ VisibleDirty d (o / 4 % 288 / 6 + 1) (o / 1152 / 12 + 1) →
      fbByte ((dirtyVisibleBlocks d).foldl (renderBlock d) fb) o = fbByte fb o) := by
  have hvisible : ∀ b ∈ dirtyVisibleBlocks d, VisibleDirty d b.1 b.2 := fun b hb => (mem_dirtyVisibleBlocks d b.1 b.2).1 hb
  rw [fbByte_renderBlocks d _ fun b hb => ⟨(hvisible b hb).1, (hvisible b hb).2.1⟩]
  constructor
  · intro hdirty
    exact if_pos ⟨_, (mem_dirtyVisibleBlocks d _ _).2 hdirty, rfl, rfl⟩
  · intro hclean
    refine if_neg ?_
    rintro ⟨b, hb, hX, hY⟩
    obtain ⟨hx1, _, hy1, _⟩ := hvisible b hb
    rw [hX, hY, Nat.sub_add_cancel hx1, Nat.sub_add_cancel hy1] at hclean
    exact hclean (hvisible b hb)

/-- The flags after the partial path: those of the visible blocks are false, those of the ring are kept (R159, R160). -/
theorem partial_flag (d : Decoder) (k : Nat) :
    Memory.read flagUnlisted ((dirtyVisibleBlocks d).foldl (fun d b => clearBlock b.1 b.2 d) d).dirty k = true ↔
      Memory.read flagUnlisted d.dirty k = true ∧ ¬ ∃ x y, k = y * 50 + x ∧ 1 ≤ x ∧ x ≤ 48 ∧ 1 ≤ y ∧ y ≤ 16 := by
  rw [clearBlocks_flag]
  by_cases hk : ∃ b ∈ dirtyVisibleBlocks d, k = b.2 * 50 + b.1
  · obtain ⟨⟨x, y⟩, hb, hkb⟩ := hk
    obtain ⟨hx1, hx48, hy1, hy16, _⟩ := (mem_dirtyVisibleBlocks d x y).1 hb
    rw [if_pos ⟨_, hb, hkb⟩]
    simp only [Bool.false_eq_true, false_iff, not_and, not_not]
    exact fun _ => ⟨x, y, hkb, hx1, hx48, hy1, hy16⟩
  · rw [if_neg hk]
    refine ⟨fun hflag => ⟨hflag, ?_⟩, And.left⟩
    rintro ⟨x, y, rfl, hx1, hx48, hy1, hy16⟩
    exact hk ⟨(x, y), (mem_dirtyVisibleBlocks d x y).2 ⟨hx1, hx48, hy1, hy16, hflag⟩, rfl⟩

/-- The mask names the dirty visible blocks by their output coordinates, each once (R161). -/
theorem mem_updated (d : Decoder) (i j : Nat) :
    (i, j) ∈ (dirtyVisibleBlocks d).map (fun b => (b.1 - 1, b.2 - 1)) ↔ VisibleDirty d (i + 1) (j + 1) := by
  rw [← mem_dirtyVisibleBlocks, List.mem_map]
  constructor
  · rintro ⟨⟨x, y⟩, hb, hij⟩
    obtain ⟨hx1, _, hy1, _⟩ := (mem_dirtyVisibleBlocks d x y).1 hb
    obtain ⟨rfl, rfl⟩ := Prod.mk.inj hij
    simpa [Nat.sub_add_cancel hx1, Nat.sub_add_cancel hy1] using hb
  · exact fun hb => ⟨_, hb, rfl⟩

theorem updated_nodup (d : Decoder) : ((dirtyVisibleBlocks d).map fun b => (b.1 - 1, b.2 - 1)).Nodup := by
  refine List.Nodup.map_on ?_ (dirtyVisibleBlocks_nodup d)
  rintro ⟨x, y⟩ hb ⟨x', y'⟩ hb' hij
  obtain ⟨hx1, _, hy1, _⟩ := (mem_dirtyVisibleBlocks d x y).1 hb
  obtain ⟨hx1', _, hy1', _⟩ := (mem_dirtyVisibleBlocks d x' y').1 hb'
  obtain ⟨hx, hy⟩ := Prod.mk.inj hij
  dsimp only at hx hy
  rw [Prod.mk.injEq]
  omega

/-- Every pixel of a dirty visible block shows its colour after the partial path (R159). -/
theorem partial_shows {d : Decoder} (fb : Memory Byte) {X Y : Nat} (hX : X < 288)
    (hdirty : VisibleDirty d (X / 6 + 1) (Y / 12 + 1)) :
    PixelShows ((dirtyVisibleBlocks d).foldl (renderBlock d) fb) X Y (outColour d X Y) :=
  pixelShows_of_outByte d _ hX fun k hk => by
    obtain ⟨hXk, hYk, _⟩ := pixel_of_byte (Y := Y) hX hk
    apply (fbByte_partial d fb _).1
    rwa [hXk, hYk]

/-- Settles O47: by the bytes, the flags and the mask of the partial path. -/
theorem partialRenderWritesDirtyBlocks : Obligations.PartialRenderWritesDirtyBlocks := by
  unfold Obligations.PartialRenderWritesDirtyBlocks
  intro s rest hp hsd hbd
  refine ⟨(dirtyVisibleBlocks s.core).foldl (renderBlock s.core) s.env.fb,
    ((dirtyVisibleBlocks s.core).foldl (fun d b => clearBlock b.1 b.2 d) s.core).dirty,
    (dirtyVisibleBlocks s.core).map fun b => (b.1 - 1, b.2 - 1), ?step, ?pixels, ?bytes, ?flags, mem_updated s.core,
    updated_nodup s.core⟩
  case step =>
    rw [step_renderFrame hp, renderFb_partial _ _ hsd hbd, renderOutput_partial _ hsd hbd, renderCore_partial _ hsd hbd,
      clearBlocks_frame]
    rfl
  case pixels =>
    intro bx by' hdirty r hr p hpx
    have ⟨hx1, hx48, hy1, _⟩ := hdirty
    have hrow : 12 * by' + r = 12 * (by' - 1) + r + 12 := by omega
    have hX : (6 * (bx - 1) + p) / 6 + 1 = bx := by omega
    have hY : (12 * (by' - 1) + r) / 12 + 1 = by' := by omega
    rw [hrow, ← outColour_block s.core _ hx1 hpx]
    exact partial_shows s.env.fb (by omega) (by rwa [hX, hY])
  case bytes =>
    intro o ho
    apply (fbByte_partial s.core s.env.fb o).2
    intro hdirty
    refine ho _ _ hdirty ((inBlock_iff ?_ hdirty.2.1 ?_).2 ⟨rfl, rfl⟩) <;> omega
  case flags =>
    intro x hx y hy
    rw [partial_flag, Decoder.blockFlag, and_congr_right_iff]
    intro _
    constructor
    · intro hring
      by_contra hvisible
      exact hring ⟨x, y, rfl, by omega, by omega, by omega, by omega⟩
    · rintro hring ⟨x', y', hk, hx'⟩
      omega

/-! ## A clean core -/

/-- No flag that RENDER_FRAME reads is set. -/
structure Clean (d : Decoder) : Prop where
  screenDirty : d.screenDirty = false
  borderDirty : d.borderDirty = false
  blocks : ∀ bx by', ¬ VisibleDirty d bx by'

section
variable {d : Decoder} (h : Clean d)
include h

theorem Clean.dirtyVisibleBlocks_eq : dirtyVisibleBlocks d = [] :=
  List.eq_nil_iff_forall_not_mem.2 fun b hb => h.blocks b.1 b.2 ((mem_dirtyVisibleBlocks d b.1 b.2).1 hb)

theorem Clean.renderCore_eq : renderCore d = d := by
  rw [renderCore_partial d h.screenDirty h.borderDirty, h.dirtyVisibleBlocks_eq, List.foldl_nil]

theorem Clean.renderFb_eq (fb : Memory Byte) : renderFb d fb = fb := by
  rw [renderFb_partial d fb h.screenDirty h.borderDirty, h.dirtyVisibleBlocks_eq, List.foldl_nil]

theorem Clean.renderOutput_eq : renderOutput d = .renderResult false [] := by
  rw [renderOutput_partial d h.screenDirty h.borderDirty, h.dirtyVisibleBlocks_eq, List.map_nil]

end

/-- RENDER_FRAME over a clean core writes nothing and changes nothing (R166). -/
theorem step_renderFrame_clean {s : State} {rest : List HostAction} (hp : s.pending = .command .renderFrame :: rest)
    (h : Clean s.core) : step s = .next { s with pending := rest, outputs := s.outputs ++ [.renderResult false []] } := by
  rw [step_renderFrame hp, h.renderCore_eq, h.renderFb_eq, h.renderOutput_eq]

/-- Settles O49: the core is clean. -/
theorem nothingDirtyWritesNothing : Obligations.NothingDirtyWritesNothing := by
  unfold Obligations.NothingDirtyWritesNothing
  intro s rest hp hsd hbd hblocks
  exact step_renderFrame_clean hp ⟨hsd, hbd, hblocks⟩

/-- A render leaves the core clean. -/
theorem renderCore_clean (d : Decoder) : Clean (renderCore d) where
  screenDirty := renderCore_screenDirty d
  borderDirty := renderCore_borderDirty d
  blocks bx by' := by
    rintro ⟨hx1, hx48, hy1, hy16, hflag⟩
    by_cases hfull : d.screenDirty = true ∨ d.borderDirty = true
    · rw [renderCore_full d hfull] at hflag
      exact Bool.noConfusion hflag
    · simp only [not_or, Bool.not_eq_true] at hfull
      rw [renderCore_partial d hfull.1 hfull.2, Decoder.blockFlag, partial_flag] at hflag
      exact hflag.2 ⟨bx, by', rfl, hx1, hx48, hy1, hy16⟩

/-- Settles O48: a render changes flags alone and leaves the core clean. -/
theorem renderIsPureAndIdempotent : Obligations.RenderIsPureAndIdempotent := by
  unfold Obligations.RenderIsPureAndIdempotent
  intro s rest hp
  exact ⟨_, _, step_renderFrame hp, step_renderFrame_clean rfl (renderCore_clean s.core), renderCore_vram _, renderCore_pal _,
    renderCore_borderIndex _, renderCore_currentPack _, rfl, rfl⟩

/-! ## What the picture depends on -/

/-- On a byte of a dirty visible block the partial path writes what the full path would write. -/
theorem fbByte_renderFb_of_visibleDirty {d : Decoder} (fb : Memory Byte) {o : Nat} (hsd : d.screenDirty = false)
    (hbd : d.borderDirty = false) (ho : o < 221184) (hdirty : VisibleDirty d (o / 4 % 288 / 6 + 1) (o / 1152 / 12 + 1)) :
    fbByte (renderFb d fb) o = some (outByte d o) ∧
      fbByte (renderFb (d.withScreenDirty true) fb) o = some (outByte d o) := by
  constructor
  · rw [renderFb_partial _ _ hsd hbd, (fbByte_partial d fb o).1 hdirty]
  · rw [renderFb_full _ _ (.inl (withScreenDirty_screenDirty d true)), fbByte_renderFullFb, if_pos ho,
      outByte_congr _ d (withScreenDirty_vram d true) (withScreenDirty_pal d true)]

/-- Settles O50: both paths write `outByte` at the offsets of a dirty visible block, and `screen_dirty` has no part in it. -/
theorem partialAndFullRenderAgree : Obligations.PartialAndFullRenderAgree := by
  unfold Obligations.PartialAndFullRenderAgree
  intro s t f hexec hch hx1 hx48 hy1 hy16 hsd hbd
  obtain ⟨xor, rfl⟩ : ∃ xor, t = s.withCore (fontBlock xor f s.core) := by
    rcases hexec with h | h
    · exact ⟨false, by rw [exec_next h, coreEffect_copyFont, fontWrite_applied _ _ _ hch (by omega) (by omega)]⟩
    · exact ⟨true, by rw [exec_next h, coreEffect_xorFont, fontWrite_applied _ _ _ hch (by omega) (by omega)]⟩
  have hdirty : VisibleDirty (fontBlock xor f s.core) f.x.toNat f.y.toNat := by
    refine ⟨hx1, hx48, hy1, hy16, ?_⟩
    rw [Decoder.blockFlag, fontBlock_dirty, read_write, if_pos rfl]
  refine ⟨_, _, step_renderFrame rfl, step_renderFrame rfl, fun o ho => ?_⟩
  obtain ⟨hX, hY⟩ := (inBlock_iff hx1 hx48 hy1).1 ho
  rw [← hX, ← hY] at hdirty
  obtain ⟨hpartial, hfull⟩ := fbByte_renderFb_of_visibleDirty s.env.fb ((fontBlock_screenDirty ..).trans hsd)
    ((fontBlock_borderDirty ..).trans hbd) (by omega) hdirty
  refine ⟨hpartial.trans hfull.symm, ?_⟩
  exact (congrArg Option.isSome hpartial).trans Option.isSome_some

/-- The border index has no part in what a render writes (R164). -/
theorem renderFb_withBorderIndex (d : Decoder) (b : PaletteIndex) (fb : Memory Byte) :
    renderFb (d.withBorderIndex b) fb = renderFb d fb := by
  have hbyte : outByte (d.withBorderIndex b) = outByte d := funext (outByte_congr _ _ rfl rfl)
  have hblock : renderBlock (d.withBorderIndex b) = renderBlock d := by
    unfold renderBlock putPixel
    simp only [outColour_congr (d.withBorderIndex b) d rfl rfl]
  unfold renderFb renderFullFb
  rw [hbyte, hblock]
  rfl

/-- Settles O51: neither the framebuffer nor the output of a render depends on the border index. -/
theorem borderIsNotRendered : Obligations.BorderIsNotRendered := by
  unfold Obligations.BorderIsNotRendered
  intro s rest b hp
  refine ⟨_, _, step_renderFrame hp, step_renderFrame hp, ?_, rfl⟩
  exact congrArg (fun fb => { s.env with fb := fb }) (renderFb_withBorderIndex s.core b s.env.fb)

/-! ## The cover of the framebuffer -/

/-- `Covered` of a core and a framebuffer: what it says does not depend on the rest of the state. -/
def CoveredBy (d : Decoder) (fb : Memory Byte) : Prop :=
  d.screenDirty = true ∨
    ∀ X < 288, ∀ Y < 192, d.blockFlag (X / 6 + 1) (Y / 12 + 1) = true ∨ PixelShows fb X Y (outColour d X Y)

theorem covered_iff (s : State) : Covered s ↔ CoveredBy s.core s.env.fb := Iff.rfl

/-- A pixel whose cell and palette are the same has the same colour (R156). -/
theorem outColour_eq_of_cell {d e : Decoder} (hpal : e.pal = d.pal) {X Y : Nat}
    (hcell : e.cell ((Y + 12) * 50 + (X / 6 + 1)) = d.cell ((Y + 12) * 50 + (X / 6 + 1))) :
    outColour e X Y = outColour d X Y := by
  have hX : (X + 6) / 6 = X / 6 + 1 := by omega
  unfold outColour pix Decoder.colour
  simp only [hX, hcell, hpal]

/-- A change that the flags cover keeps the framebuffer covered. -/
theorem CoveredBy.of_change {d e : Decoder} {fb : Memory Byte} (h : CoveredBy d fb) (hchange : CoveredChange d e) :
    CoveredBy e fb := by
  cases hsd : e.screenDirty with
  | true => exact .inl hsd
  | false =>
    have hold := h.resolve_left fun hd => by simp [hchange.screenDirty hd] at hsd
    refine .inr fun X hX Y hY => ?_
    rcases hold X hX Y hY with hflag | hshows
    · exact .inl (hchange.flags _ hflag)
    · by_cases hcell : e.cell ((Y + 12) * 50 + (X / 6 + 1)) = d.cell ((Y + 12) * 50 + (X / 6 + 1))
      · rw [← outColour_eq_of_cell (hchange.pal hsd) hcell] at hshows
        exact .inr hshows
      · have hrow : (Y + 12) / 12 = Y / 12 + 1 := by omega
        rw [← hrow]
        exact .inl (hchange.cells hsd _ (by omega) _ (by omega) hcell)

/-- A forward batch keeps the framebuffer covered. -/
theorem CoveredBy.batchCore {d : Decoder} {fb : Memory Byte} (h : CoveredBy d fb) (st : PackStream) (target : PackIndex) :
    CoveredBy (batchCore st target d) fb :=
  foldl_applyPack_keeps (CoveredBy · fb) (fun i d hd => hd.of_change (coreEffect_covered i d)) _ _ h

theorem CoveredBy.renderFull (d : Decoder) : CoveredBy (clearAllFlags d) (renderFullFb d) :=
  .inr fun _ hX _ hY => .inr (renderFullFb_shows d hX hY)

/-- The partial path leaves the pixels it does not write as they were. -/
theorem partial_keeps {d : Decoder} {fb : Memory Byte} {X Y : Nat} {c : Colour} (hX : X < 288)
    (hclean : ¬ VisibleDirty d (X / 6 + 1) (Y / 12 + 1)) (h : PixelShows fb X Y c) :
    PixelShows ((dirtyVisibleBlocks d).foldl (renderBlock d) fb) X Y c := by
  have hbyte : ∀ k < 4, fbByte ((dirtyVisibleBlocks d).foldl (renderBlock d) fb) (pixelOffset X Y + k) =
      fbByte fb (pixelOffset X Y + k) := fun k hk => by
    obtain ⟨hXk, hYk, _⟩ := pixel_of_byte (Y := Y) hX hk
    apply (fbByte_partial d fb _).2
    rwa [hXk, hYk]
  obtain ⟨hr, hg, hb, ha⟩ := h
  exact ⟨(hbyte 0 (by decide)).trans hr, (hbyte 1 (by decide)).trans hg, (hbyte 2 (by decide)).trans hb,
    (hbyte 3 (by decide)).trans ha⟩

/-- A render keeps the framebuffer covered: what it clears the flag of, it has written. -/
theorem CoveredBy.render {d : Decoder} {fb : Memory Byte} (h : CoveredBy d fb) : CoveredBy (renderCore d) (renderFb d fb) := by
  by_cases hfull : d.screenDirty = true ∨ d.borderDirty = true
  · rw [renderCore_full d hfull, renderFb_full d fb hfull]
    exact .renderFull d
  · simp only [not_or, Bool.not_eq_true] at hfull
    obtain ⟨hsd, hbd⟩ := hfull
    have hold := h.resolve_left (by simp [hsd])
    rw [renderFb_partial d fb hsd hbd]
    refine .inr fun X hX Y hY => .inr ?_
    rw [outColour_congr (renderCore d) d (renderCore_vram d) (renderCore_pal d)]
    by_cases hdirty : VisibleDirty d (X / 6 + 1) (Y / 12 + 1)
    · exact partial_shows fb hX hdirty
    · have hnoflag : ¬ d.blockFlag (X / 6 + 1) (Y / 12 + 1) = true := fun hflag =>
        hdirty ⟨by omega, by omega, by omega, by omega, hflag⟩
      exact partial_keeps hX hdirty ((hold X hX Y hY).resolve_left hnoflag)

/-- Settles O56: a pack's change is covered by the flags, a render writes what it clears, and the other admitted actions touch neither
core nor framebuffer. -/
theorem stepKeepsFramebufferCovered : Obligations.StepKeepsFramebufferCovered := by
  unfold Obligations.StepKeepsFramebufferCovered
  intro s t hs hkeeps hstep
  obtain ⟨_, rfl⟩ | ⟨a, rest, hp, rfl⟩ := step_cases hstep
  · exact hs
  · have ha := hkeeps a rest hp
    rw [covered_iff] at hs ⊢
    cases a with
    | command c =>
      cases c with
      | reset => exact ha.elim
      | decodeTo target =>
        have hforward : ¬ target.toNat < s.core.currentPack.toNat := Nat.not_lt.2 ha
        simp only [actionCore, actionEnv, if_neg hforward]
        split
        · exact hs
        · exact hs.batchCore _ _
      | renderFrame => exact hs.render
    | supplyStream bytes => exact hs
    | supplyFrameBuffer written => exact ha.elim

/-- Settles O57: the full path writes every pixel and clears every flag; and the picture of ResetState is black. -/
theorem fullRenderAndBlackFillCover : Obligations.FullRenderAndBlackFillCover := by
  unfold Obligations.FullRenderAndBlackFillCover
  constructor
  · intro s t rest hp hflags hstep
    rw [step_renderFrame hp, renderCore_full _ hflags, renderFb_full _ _ hflags] at hstep
    cases hstep
    exact ⟨CoveredBy.renderFull s.core, rfl, fun _ _ => rfl⟩
  · intro s t rest hp hblack hstep
    rw [step_reset hp] at hstep
    cases hstep
    refine .inr fun X hX Y hY => .inr ?_
    have hcolour : outColour Decoder.reset X Y = ⟨0, 0, 0⟩ := Decoder.reset_pal_getElem _ _
    rw [hcolour]
    exact hblack X hX Y hY

end Sys2Proof.Machine
end

section
/-! The effect of each instruction, written out: presets and CLUT loads (41_palette_clut.md), font writes (42_font.md), and
what a second pack of the same kind does. -/

namespace Sys2Proof.Machine

/-! ## Lanes -/

theorem selectedIndex_eq (row : Symbol) (fg bg : PaletteIndex) (p : Nat) :
    selectedIndex row fg bg p = if row.toNat / 2 ^ (5 - p) % 2 = 1 then fg else bg := by
  simp only [selectedIndex, ← BitVec.testBit_toNat, Nat.testBit_eq_decide_div_mod_eq, decide_eq_true_eq]

/-- Settles O12: by the lane laws of the three operations. -/
theorem cellIsBuiltLaneByLane : Obligations.CellIsBuiltLaneByLane :=
  fun p hp => ⟨fun row fg bg => (lane_cellVal row fg bg p hp).trans (selectedIndex_eq row fg bg p),
    fun c => lane_rep6 c p hp, fun a v => lane_xor a v p⟩

/-! ## Presets -/

/-- Settles O13: the array is tabulated with the replicated index. -/
theorem memoryPresetFillsVram : Obligations.MemoryPresetFillsVram := by
  unfold Obligations.MemoryPresetFillsVram
  intro c s
  refine ⟨(memoryPreset c s.core).vram, ?_, fun j hj p hp => ?_⟩
  · rw [exec_eq, coreEffect_memoryPreset, memoryPreset_eq, withScreenDirty_vram]
    rfl
  · rw [memoryPreset_vram, read_tabulate, if_pos hj, lane_rep6 c p hp]

/-- Settles O14: by what BORDER_PRESET writes, the disjunction of the flag read as a case distinction. -/
theorem borderPresetComparesColours : Obligations.BorderPresetComparesColours := by
  unfold Obligations.BorderPresetComparesColours
  intro c s
  have hflag : (s.core.borderDirty || s.core.colour c != s.core.colour s.core.borderIndex) =
      if s.core.colour c ≠ s.core.colour s.core.borderIndex then true else s.core.borderDirty := by
    by_cases h : s.core.colour c = s.core.colour s.core.borderIndex <;> simp [h]
  rw [exec_eq, coreEffect_borderPreset, borderPreset_eq, hflag]
  rfl

/-! ## CLUT loads -/

section
variable (cs : Vector Rgb4 8) (j : PaletteIndex) (d : Decoder) (hj : j.toNat + 8 ≤ 16)
include hj

/-- An entry that a load carries, by its number (R127). -/
theorem loadEntries_pal_loaded (k : Nat) (hk : k < 8) (hk' : j.toNat + k < 16) :
    (loadEntries cs.toList j d).pal[j.toNat + k] = colourOf cs[k] := by
  have htoNat : (BitVec.ofNat 4 (j.toNat + k)).toNat = j.toNat + k := by simpa using hk'
  rw [pal_getElem _ _ hk', loadEntries_colour _ _ _ _ (by simpa using hj)]
  simp [htoNat, hk]

/-- An entry that a load does not carry. -/
theorem loadEntries_pal_kept (n : Nat) (hn : n < 16) (hout : n < j.toNat ∨ j.toNat + 8 ≤ n) :
    (loadEntries cs.toList j d).pal[n] = d.pal[n] := by
  have htoNat : (BitVec.ofNat 4 n).toNat = n := by simpa using hn
  rw [pal_getElem _ _ hn, pal_getElem _ _ hn, loadEntries_colour _ _ _ _ (by simpa using hj), dif_neg]
  rw [htoNat, Vector.length_toList]
  omega

/-- A load sets `screen_dirty` when an entry changes, by the entries' numbers (R127). -/
theorem loadEntries_screenDirty_iff_pal : (loadEntries cs.toList j d).screenDirty = true ↔
    d.screenDirty = true ∨ ∃ (n : Nat) (h : n < 16), (loadEntries cs.toList j d).pal[n] ≠ d.pal[n] := by
  rw [loadEntries_screenDirty _ _ _ (by simpa using hj)]
  refine or_congr_right ⟨fun ⟨i, hi⟩ => ⟨i.toNat, i.isLt, hi⟩, fun ⟨n, hn, hne⟩ => ⟨BitVec.ofNat 4 n, ?_⟩⟩
  rwa [← pal_getElem _ _ hn, ← pal_getElem _ _ hn]

end

/-- The whole effect of a CLUT load: palette and the two flags (R127). -/
theorem exec_loadEntries {i : Instr} {cs : List Rgb4} {j : PaletteIndex} {s : State}
    (hi : coreEffect i s.core = loadEntries cs j s.core) :
    exec i s = .next { s with core := { s.core with
      pal := (loadEntries cs j s.core).pal
      screenDirty := (loadEntries cs j s.core).screenDirty
      borderDirty := (loadEntries cs j s.core).borderDirty } } := by
  rw [exec_eq, hi]
  exact congrArg (fun d => Host.Outcome.next (s.withCore d)) (loadEntries_frame cs j s.core)

/-- Settles O15: both loads are `loadEntries` from their offset on. -/
theorem loadClutWritesEntriesAndFlags : Obligations.LoadClutWritesEntriesAndFlags := by
  unfold Obligations.LoadClutWritesEntriesAndFlags
  intro i cs offset hi s
  obtain ⟨j, hj, rfl, heffect⟩ : ∃ j : PaletteIndex, j.toNat + 8 ≤ 16 ∧ offset = j.toNat ∧
      coreEffect i s.core = loadEntries cs.toList j s.core := by
    obtain ⟨rfl, rfl⟩ | ⟨rfl, rfl⟩ := hi
    · exact ⟨0, by decide, rfl, rfl⟩
    · exact ⟨8, by decide, rfl, rfl⟩
  exact ⟨_, _, _, exec_loadEntries heffect, loadEntries_pal_loaded cs j s.core hj, loadEntries_pal_kept cs j s.core hj,
    loadEntries_screenDirty_iff_pal cs j s.core hj, loadEntries_borderDirty cs.toList j s.core (by simpa using hj)⟩

/-! ## Font writes -/

/-- The whole effect of a font write that is not dropped, XOR or overwrite (R143, R144). -/
theorem exec_fontBlock {i : Instr} {xor : Bool} {f : FontOperands} {s : State}
    (hi : coreEffect i s.core = fontWrite xor f s.core) (hch : f.ch.toNat ≤ 1) (hx : f.x.toNat ≤ 49) (hy : f.y.toNat ≤ 17) :
    exec i s = .next { s with core := { s.core with
      vram := (fontBlock xor f s.core).vram
      dirty := Memory.write flagUnlisted s.core.dirty (f.y.toNat * 50 + f.x.toNat) true } } := by
  rw [exec_eq, hi, fontWrite_applied xor f s.core hch hx hy]
  have hframe := fontBlock_frame xor f s.core
  generalize fontBlock xor f s.core = d at hframe ⊢
  exact congrArg (fun d => Host.Outcome.next (s.withCore d)) hframe

/-- The flags after a font write that is not dropped: the block's is set, the others are kept (R144). -/
theorem read_markedFlags (m : Memory Bool) (a k : Nat) :
    Memory.read flagUnlisted (Memory.write flagUnlisted m a true) k = (k == a || Memory.read flagUnlisted m k) := by
  rw [read_write]
  by_cases h : k = a <;> simp [h]

/-- Settles O16: the rows, the other cells and the flags of an overwriting block write. -/
theorem copyFontWritesBlock : Obligations.CopyFontWritesBlock := by
  unfold Obligations.CopyFontWritesBlock
  intro f s hch hx hy
  exact ⟨_, _, exec_fontBlock (coreEffect_copyFont f s.core) hch hx hy,
    fun r hr => fontBlock_cell_row false f s.core ⟨r, hr⟩,
    fun j hj => fontBlock_cell_other false f s.core j hj, read_markedFlags _ _⟩

/-- Settles O17: the rows, the other cells and the flags of a XORing block write. -/
theorem xorFontXorsBlock : Obligations.XorFontXorsBlock := by
  unfold Obligations.XorFontXorsBlock
  intro f s hch hx hy
  exact ⟨_, _, exec_fontBlock (coreEffect_xorFont f s.core) hch hx hy,
    fun r hr => fontBlock_cell_row true f s.core ⟨r, hr⟩,
    fun j hj => fontBlock_cell_other true f s.core j hj, read_markedFlags _ _⟩

/-- Settles O18: such a font write is dropped, XOR or not. -/
theorem badFontPackIsDropped : Obligations.BadFontPackIsDropped := by
  unfold Obligations.BadFontPackIsDropped
  intro f s hbad
  rw [exec_eq, exec_eq, coreEffect_copyFont, coreEffect_xorFont, fontWrite_dropped _ _ _ hbad, fontWrite_dropped _ _ _ hbad]
  exact ⟨rfl, rfl⟩

/-- Settles O19: the column is the index modulo 50, the font row and the row in it are the pixel row divided by 12. -/
theorem blocksPartitionVram : Obligations.BlocksPartitionVram := by
  unfold Obligations.BlocksPartitionVram
  refine ⟨fun x hx y hy r hr => ⟨blockCell_lt hx hy hr, rfl⟩, fun j hj => ?_⟩
  refine ⟨j % 50, j / 50 / 12, j / 50 % 12, ⟨by omega, by omega, by omega, ?_⟩, ?_⟩
  · unfold blockCell; omega
  · rintro x' y' r' ⟨hx, hy, hr, rfl⟩
    unfold blockCell; omega

/-- XORing a block's bitmaps a second time restores every cell (R147). -/
theorem fontBlock_xor_twice_cell (f : FontOperands) (d : Decoder) (j : Nat) :
    (fontBlock true f (fontBlock true f d)).cell j = d.cell j := by
  by_cases hin : ∃ r < 12, j = blockCell f.x.toNat f.y.toNat r
  · obtain ⟨r, hr, rfl⟩ := hin
    have hrow := fun d => fontBlock_cell_row true f d ⟨r, hr⟩
    simp only [if_true] at hrow
    rw [hrow, hrow, BitVec.xor_assoc, BitVec.xor_self, BitVec.xor_zero]
  · push Not at hin
    rw [fontBlock_cell_other _ _ _ _ hin, fontBlock_cell_other _ _ _ _ hin]

/-- Settles O23: a dropped pack changes nothing, twice; an applied one XORs the same cells twice and sets the flag. -/
theorem xorFontTwiceRestores : Obligations.XorFontTwiceRestores := by
  unfold Obligations.XorFontTwiceRestores
  intro f s
  refine ⟨_, _, exec_eq _ s, exec_eq _ _, fun j => ?_, fun hch hx hy => ?_⟩
  · simp only [withCore_core, coreEffect_xorFont]
    by_cases h : f.ch.toNat ≤ 1 ∧ f.x.toNat ≤ 49 ∧ f.y.toNat ≤ 17
    · obtain ⟨hch, hx, hy⟩ := h
      rw [fontWrite_applied _ _ _ hch hx hy, fontWrite_applied _ _ _ hch hx hy, fontBlock_xor_twice_cell]
    · have hbad : 2 ≤ f.ch.toNat ∨ 50 ≤ f.x.toNat ∨ 18 ≤ f.y.toNat := by omega
      rw [fontWrite_dropped _ _ _ hbad, fontWrite_dropped _ _ _ hbad]
  · simp only [withCore_core, coreEffect_xorFont]
    rw [fontWrite_applied _ _ _ hch hx hy, Decoder.blockFlag, fontBlock_dirty, read_markedFlags]
    simp

/-! ## Repeated packs -/

/-- A load of colours that the palette already holds changes nothing (R127). -/
theorem loadEntries_eq_self (cs : List Rgb4) (j : PaletteIndex) (d : Decoder) (h : j.toNat + cs.length ≤ 16)
    (hloaded : ∀ (i : PaletteIndex) (hi : j.toNat ≤ i.toNat ∧ i.toNat < j.toNat + cs.length),
      d.colour i = colourOf (cs[i.toNat - j.toNat]'(by omega))) : loadEntries cs j d = d := by
  induction cs generalizing j with
  | nil => rfl
  | cons c cs ih =>
    have hhead : loadEntry j (colourOf c) d = d := if_pos (by simpa using hloaded j (by simp))
    rw [loadEntries, hhead]
    rcases Nat.lt_or_ge (j.toNat + 1) 16 with hlt | hge
    · have hsucc : (j + 1).toNat = j.toNat + 1 := by
        rw [BitVec.toNat_add]; simpa using hlt
      rw [List.length_cons] at h
      refine ih (j + 1) (by omega) fun i hi => ?_
      have hsub : i.toNat - j.toNat = (i.toNat - (j + 1).toNat) + 1 := by omega
      simpa [hsub] using hloaded i (by rw [List.length_cons]; omega)
    · have hnil : cs = [] := List.eq_nil_of_length_eq_zero (by rw [List.length_cons] at h; omega)
      rw [hnil, loadEntries]

theorem loadEntries_idempotent (cs : List Rgb4) (j : PaletteIndex) (d : Decoder) (h : j.toNat + cs.length ≤ 16) :
    loadEntries cs j (loadEntries cs j d) = loadEntries cs j d :=
  loadEntries_eq_self cs j _ h fun i hi => by rw [loadEntries_colour cs j i d h, dif_pos hi]

/-- After a BORDER_PRESET the border has the colour of the index, so a second one compares equal colours (R122). -/
theorem borderPreset_idempotent (c : PaletteIndex) (d : Decoder) : borderPreset c (borderPreset c d) = borderPreset c d := by
  rw [borderPreset_eq c (borderPreset c d), borderPreset_borderIndex, bne_self_eq_false, Bool.or_false]
  rfl

theorem memoryPreset_idempotent (c : PaletteIndex) (d : Decoder) : memoryPreset c (memoryPreset c d) = memoryPreset c d := by
  rw [memoryPreset_eq c (memoryPreset c d), ← memoryPreset_vram c d]
  rfl

/-- An effect that repeats without change makes the second of two packs change nothing at all. -/
theorem exec_twice {i : Instr} {s : State} (h : coreEffect i (coreEffect i s.core) = coreEffect i s.core) :
    ∃ t, exec i s = .next t ∧ exec i t = .next t :=
  ⟨_, exec_eq i s, by rw [exec_eq, withCore_core, h]; rfl⟩

/-- Settles O24: each of the four effects is idempotent on the core. -/
theorem repeatedPaletteAndPresetPacksAreIdempotent : Obligations.RepeatedPaletteAndPresetPacksAreIdempotent := by
  unfold Obligations.RepeatedPaletteAndPresetPacksAreIdempotent
  rintro i (⟨cs, rfl⟩ | ⟨cs, rfl⟩ | ⟨c, rfl⟩ | ⟨c, rfl⟩) s
  · exact exec_twice (loadEntries_idempotent cs.toList 0 s.core (by simp))
  · exact exec_twice (loadEntries_idempotent cs.toList 8 s.core (by simp))
  · exact exec_twice (memoryPreset_idempotent c s.core)
  · exact exec_twice (borderPreset_idempotent c s.core)

end Sys2Proof.Machine
end

section
/-! The scrolls: each cell after a scroll (44_scroll.md R182 to R187), and the laws of shifts (R188). -/

namespace Sys2Proof.Machine

/-! ## Each cell after a scroll -/

/-- Both shifts in a row: the fill where either axis vacates a cell of a preset, else the cell one step away on each axis (R182). -/
theorem shifts_cell (h : HDir) (v : VDir) (copy : Bool) (fill : Cell) (m : Memory Cell) {x Y : Nat} (hx : x < 50)
    (hY : Y < 216) :
    (columnVacated h x ∨ rowVacated v Y → copy = false → cellAt (vshift v copy fill (hshift h copy fill m)) x Y = fill) ∧
    (copy = true ∨ ¬ (columnVacated h x ∨ rowVacated v Y) → cellAt (vshift v copy fill (hshift h copy fill m)) x Y =
      cellAt m ((x + columnOffset h) % 50) ((Y + rowOffset v) % 216)) := by
  obtain ⟨hrowFill, hrowKept⟩ := vshift_cell v copy fill (hshift h copy fill m) x Y hx hY
  obtain ⟨hcolFill, hcolKept⟩ := hshift_cell h copy fill m x ((Y + rowOffset v) % 216) hx (Nat.mod_lt _ (by decide))
  constructor
  · intro hvacated hcopy
    by_cases hrow : rowVacated v Y
    · exact hrowFill hrow hcopy
    · rw [hrowKept (.inr hrow), hcolFill (hvacated.resolve_right hrow) hcopy]
  · intro hkept
    rw [hrowKept (hkept.imp_right fun hn hrow => hn (.inr hrow)), hcolKept (hkept.imp_right fun hn hcol => hn (.inl hcol))]

/-- The whole effect of a scroll, copy or preset (R182, R187). -/
theorem exec_scroll {i : Instr} {copy : Bool} {fill : PaletteIndex} {h : HDir} {v : VDir} {s : State}
    (hi : coreEffect i s.core = scroll copy fill h v s.core) :
    exec i s = .next { s with core := { s.core with
      vram := vshift v copy (rep6 fill) (hshift h copy (rep6 fill) s.core.vram)
      screenDirty := true } } := by
  rw [exec_eq, hi, scroll_eq]
  rfl

/-- Settles O20: a copy vacates nothing. -/
theorem scrollCopyRotates : Obligations.ScrollCopyRotates := by
  unfold Obligations.ScrollCopyRotates
  intro fill h v s
  exact ⟨_, exec_scroll (coreEffect_scrollCopy fill h v s.core), fun x hx Y hY =>
    (shifts_cell h v true (rep6 fill) s.core.vram hx hY).2 (.inl rfl)⟩

/-- Settles O21: a preset fills what either axis vacates. -/
theorem scrollPresetShiftsAndFills : Obligations.ScrollPresetShiftsAndFills := by
  unfold Obligations.ScrollPresetShiftsAndFills
  intro fill h v s
  refine ⟨_, exec_scroll (coreEffect_scrollPreset fill h v s.core), fun x hx Y hY => ?_⟩
  obtain ⟨hfill, hkept⟩ := shifts_cell h v false (rep6 fill) s.core.vram hx hY
  refine ⟨fun hvacated p hp => ?_, fun hn => hkept (.inr hn)⟩
  exact (congrArg (lane · p) (hfill hvacated rfl)).trans (lane_rep6 fill p hp)

/-! ## The axes commute -/

/-- The other order of the shifts gives the same cells. -/
theorem shifts_comm_cell (h : HDir) (v : VDir) (copy : Bool) (fill : Cell) (m : Memory Cell) {x Y : Nat} (hx : x < 50)
    (hY : Y < 216) :
    cellAt (vshift v copy fill (hshift h copy fill m)) x Y = cellAt (hshift h copy fill (vshift v copy fill m)) x Y := by
  obtain ⟨hfill, hkept⟩ := shifts_cell h v copy fill m hx hY
  obtain ⟨hcolFill, hcolKept⟩ := hshift_cell h copy fill (vshift v copy fill m) x Y hx hY
  obtain ⟨hrowFill, hrowKept⟩ := vshift_cell v copy fill m ((x + columnOffset h) % 50) Y (Nat.mod_lt _ (by decide)) hY
  by_cases hcopy : copy = true
  · rw [hkept (.inl hcopy), hcolKept (.inl hcopy), hrowKept (.inl hcopy)]
  · have hpreset : copy = false := by simpa using hcopy
    by_cases hcol : columnVacated h x
    · rw [hfill (.inl hcol) hpreset, hcolFill hcol hpreset]
    · rw [hcolKept (.inr hcol)]
      by_cases hrow : rowVacated v Y
      · rw [hfill (.inr hrow) hpreset, hrowFill hrow hpreset]
      · rw [hkept (.inr (not_or.2 ⟨hcol, hrow⟩)), hrowKept (.inr hrow)]

/-- Canonical arrays with the same cells are the same data. -/
theorem eq_of_cellAt_eq {m n : Memory Cell} (hm : Memory.wf 10800 (some vramUnlisted) m = true)
    (hn : Memory.wf 10800 (some vramUnlisted) n = true) (h : ∀ x < 50, ∀ Y < 216, cellAt m x Y = cellAt n x Y) : m = n := by
  refine eq_of_read_eq hm hn fun j hj => ?_
  rw [read_eq_cellAt, read_eq_cellAt]
  exact h _ (by omega) _ (by omega)

/-- A horizontal shift returns the array it was given, or a tabulated one. -/
theorem hshift_eq_or_wf (h : HDir) (copy : Bool) (fill : Cell) :
    (∀ m, hshift h copy fill m = m) ∨ ∀ m, Memory.wf 10800 (some vramUnlisted) (hshift h copy fill m) = true := by
  cases h with
  | none => exact .inl (hshift_none copy fill)
  | right => exact .inr fun m => by rw [hshift_right]; exact vramOf_wf _
  | left => exact .inr fun m => by rw [hshift_left]; exact vramOf_wf _
  | h3 => exact .inl (hshift_h3 copy fill)

theorem vshift_eq_or_wf (v : VDir) (copy : Bool) (fill : Cell) :
    (∀ m, vshift v copy fill m = m) ∨ ∀ m, Memory.wf 10800 (some vramUnlisted) (vshift v copy fill m) = true := by
  cases v with
  | none => exact .inl (vshift_none copy fill)
  | down => exact .inr fun m => by rw [vshift_down]; exact vramOf_wf _
  | up => exact .inr fun m => by rw [vshift_up]; exact vramOf_wf _
  | v3 => exact .inl (vshift_v3 copy fill)

/-- Settles O25: an axis that does not move changes nothing, and two that move give canonical arrays with the same cells. -/
theorem scrollAxesCommute : Obligations.ScrollAxesCommute := by
  unfold Obligations.ScrollAxesCommute
  intro copy fill h v m
  rcases hshift_eq_or_wf h copy fill with hstill | hwf
  · rw [hstill, hstill]
  · rcases vshift_eq_or_wf v copy fill with vstill | vwf
    · rw [vstill, vstill]
    · exact eq_of_cellAt_eq (vwf _) (hwf _) fun x hx Y hY => shifts_comm_cell h v copy fill m hx hY

/-! ## Rotations -/

/-- Repeated rotations add their offsets. -/
theorem iterate_hshift_cell (h : HDir) (fill : Cell) (n : Nat) (m : Memory Cell) {x Y : Nat} (hx : x < 50) (hY : Y < 216) :
    cellAt ((hshift h true fill)^[n] m) x Y = cellAt m ((x + n * columnOffset h) % 50) Y := by
  induction n generalizing m with
  | zero => rw [Function.iterate_zero, id, Nat.zero_mul, Nat.add_zero, Nat.mod_eq_of_lt hx]
  | succ n ih =>
    rw [Function.iterate_succ_apply, ih, (hshift_cell h true fill m _ Y (Nat.mod_lt _ (by decide)) hY).2 (.inl rfl),
      Nat.mod_add_mod, Nat.add_assoc, Nat.succ_mul]

theorem iterate_vshift_cell (v : VDir) (fill : Cell) (n : Nat) (m : Memory Cell) {x Y : Nat} (hx : x < 50) (hY : Y < 216) :
    cellAt ((vshift v true fill)^[n] m) x Y = cellAt m x ((Y + n * rowOffset v) % 216) := by
  induction n generalizing m with
  | zero => rw [Function.iterate_zero, id, Nat.zero_mul, Nat.add_zero, Nat.mod_eq_of_lt hY]
  | succ n ih =>
    rw [Function.iterate_succ_apply, ih, (vshift_cell v true fill m x _ hx (Nat.mod_lt _ (by decide))).2 (.inl rfl),
      Nat.mod_add_mod, Nat.add_assoc, Nat.succ_mul]

/-- Opposite rotations undo each other. -/
theorem hshift_left_right_cell (fill : Cell) (m : Memory Cell) {x Y : Nat} (hx : x < 50) (hY : Y < 216) :
    cellAt (hshift .left true fill (hshift .right true fill m)) x Y = cellAt m x Y := by
  rw [(hshift_cell .left true fill _ x Y hx hY).2 (.inl rfl),
    (hshift_cell .right true fill m _ Y (Nat.mod_lt _ (by decide)) hY).2 (.inl rfl)]
  congr 1
  simp only [columnOffset]
  omega

theorem vshift_up_down_cell (fill : Cell) (m : Memory Cell) {x Y : Nat} (hx : x < 50) (hY : Y < 216) :
    cellAt (vshift .up true fill (vshift .down true fill m)) x Y = cellAt m x Y := by
  rw [(vshift_cell .up true fill _ x Y hx hY).2 (.inl rfl),
    (vshift_cell .down true fill m x _ hx (Nat.mod_lt _ (by decide))).2 (.inl rfl)]
  congr 1
  simp only [rowOffset]
  omega

/-- A preset shift right drops column 49, and the shift left after it fills that column. -/
theorem hshift_left_right_preset_cell (fill : Cell) (m : Memory Cell) {x Y : Nat} (hx : x < 50) (hY : Y < 216) :
    cellAt (hshift .left false fill (hshift .right false fill m)) x Y = if x = 49 then fill else cellAt m x Y := by
  rw [hshift_left, cellAt_hshiftLeft _ _ _ _ _ hx hY]
  by_cases h49 : x = 49
  · rw [if_pos h49, if_pos h49]
    rfl
  · rw [if_neg h49, if_neg h49, hshift_right, cellAt_hshiftRight _ _ _ _ _ (by omega) hY, if_neg (Nat.succ_ne_zero x),
      Nat.add_sub_cancel]

/-- Settles O26: fifty column offsets are a multiple of 50, eighteen row offsets one of 216. -/
theorem scrollRotationsReturn : Obligations.ScrollRotationsReturn := by
  unfold Obligations.ScrollRotationsReturn
  intro fill m x hx Y hY
  refine ⟨hshift_left_right_cell fill m hx hY, vshift_up_down_cell fill m hx hY, fun h => ?_, fun v => ?_,
    hshift_left_right_preset_cell fill m hx hY⟩
  · rw [iterate_hshift_cell h fill 50 m hx hY, Nat.add_mul_mod_self_left, Nat.mod_eq_of_lt hx]
  · have hreturn : (Y + 18 * rowOffset v) % 216 = Y := by cases v <;> simp only [rowOffset] <;> omega
    rw [iterate_vshift_cell v fill 18 m hx hY, hreturn]

end Sys2Proof.Machine
end

section
/-! The commands of the host: DECODE_TO over a range (40_decoder_dispatch.md R102 to R105), the stream it reads (20_memory.md R42,
R46), and what determines a transition (00_scope.md R9, R10). -/

namespace Sys2Proof.Machine

/-! ## DECODE_TO -/

/-- A DECODE_TO that fails the length test (R102; 60_exceptions.md R200). -/
theorem step_decodeTo_rejected {s : State} {target : PackIndex} {rest : List HostAction}
    (hp : s.pending = .command (.decodeTo target) :: rest) (hlen : s.env.stream.length < 24 * target.toNat) :
    step s = .next { s with pending := rest, outputs := s.outputs ++ [.decodeResult .insufficientInput] } := by
  rw [step_action hp, actionCore, actionOutputs, if_pos hlen, if_pos hlen]
  rfl

/-- A DECODE_TO to a target at or ahead of the cursor, over a stream long enough (R102). -/
theorem step_decodeTo_forward {s : State} {target : PackIndex} {rest : List HostAction}
    (hp : s.pending = .command (.decodeTo target) :: rest) (hlen : 24 * target.toNat ≤ s.env.stream.length)
    (hforward : s.core.currentPack.toNat ≤ target.toNat) :
    step s = .next { s with
      core := batchCore s.env.stream target s.core
      pending := rest
      outputs := s.outputs ++ [.decodeResult .ok] } := by
  rw [step_action hp, actionCore, actionOutputs_decodeTo_accepted _ hlen, if_neg (Nat.not_lt.2 hlen),
    if_neg (Nat.not_lt.2 hforward)]
  rfl

/-- Settles O31: `apply_pack` is the effect on the core, and the batch is its fold. -/
theorem decodeForwardIsTheFold : Obligations.DecodeForwardIsTheFold := by
  unfold Obligations.DecodeForwardIsTheFold
  refine ⟨fun P s => ?_, fun s target rest hp hlen hforward => step_decodeTo_forward hp hlen hforward⟩
  rw [exec_eq, applyPack_eq]
  rfl

/-- Settles O33: the length test comes first. -/
theorem insufficientInputChangesNothing : Obligations.InsufficientInputChangesNothing :=
  ⟨rfl, rfl, fun _ _ _ hp hlen => step_decodeTo_rejected hp hlen⟩

/-- A batch to the cursor's own index applies no pack. -/
theorem batchCore_self (st : PackStream) (d : Decoder) : batchCore st d.currentPack d = d := by
  rw [batchCore, Nat.sub_self, packsOf_zero, List.foldl_nil]
  rfl

/-- After an accepted DECODE_TO the cursor is the target, so the same DECODE_TO again applies no pack; a rejected one is rejected again
(R105). -/
theorem actionCore_decodeTo_twice (d : Decoder) (e : Env) (target : PackIndex) :
    actionCore (.command (.decodeTo target)) (actionCore (.command (.decodeTo target)) d e) e =
      actionCore (.command (.decodeTo target)) d e := by
  simp only [actionCore]
  split
  · rfl
  · generalize (if target.toNat < d.currentPack.toNat then Decoder.reset else d) = start
    rw [batchCore_currentPack, if_neg (Nat.lt_irrefl _)]
    have hself := batchCore_self e.stream (batchCore e.stream target start)
    rwa [batchCore_currentPack] at hself

/-- Settles O34: neither the core nor the length test sees a difference the second time. -/
theorem decodeToSameTargetIsIdempotent : Obligations.DecodeToSameTargetIsIdempotent := by
  unfold Obligations.DecodeToSameTargetIsIdempotent
  intro s target rest hp
  refine ⟨_, _, step_action hp, rfl, ?_⟩
  rw [step_action rfl]
  exact congrArg (fun d => Host.Outcome.next (State.mk d s.env rest _)) (actionCore_decodeTo_twice s.core s.env target)

/-- Two batches in a row are one (95_test_vectors.md V-D17). -/
theorem batchCore_batchCore (st : PackStream) (d : Decoder) (a b : PackIndex) (hda : d.currentPack.toNat ≤ a.toNat)
    (hab : a.toNat ≤ b.toNat) : batchCore st b (batchCore st a d) = batchCore st b d := by
  have hlen : b.toNat - d.currentPack.toNat = (a.toNat - d.currentPack.toNat) + (b.toNat - a.toNat) := by omega
  have hmid : d.currentPack.toNat + (a.toNat - d.currentPack.toNat) = a.toNat := by omega
  rw [batchCore, batchCore_currentPack]
  unfold batchCore
  rw [foldl_withCurrentPack, hlen, packsOf_append, hmid, List.foldl_append]
  rfl

/-- Settles O35: the second batch starts where the first one ends. -/
theorem forwardDecodesCompose : Obligations.ForwardDecodesCompose := by
  unfold Obligations.ForwardDecodesCompose
  intro s a b hda hab hlen
  refine ⟨_, _, _, step_decodeTo_forward rfl (by dsimp only; omega) hda, step_decodeTo_forward rfl hlen ?_,
    step_decodeTo_forward rfl hlen (Nat.le_trans hda hab), batchCore_batchCore _ _ a b hda hab, rfl⟩
  rwa [batchCore_currentPack]

/-! ## The stream -/

/-- A range of packs depends on its own bytes alone (20_memory.md R46, R58). -/
theorem packsOf_congr (st st' : PackStream) (k n : Nat)
    (h : ∀ a, 24 * k ≤ a → a < 24 * (k + n) → st.byteAt a = st'.byteAt a) : packsOf st k n = packsOf st' k n := by
  refine List.map_congr_left fun j hj => fetchPack_congr st st' j fun a hlow hhigh => ?_
  obtain ⟨hk, hn⟩ := List.mem_range'_1.1 hj
  exact h a (by omega) (by omega)

/-- Settles O36: the batch fetches the packs of its range alone. -/
theorem decodeReadsOnlyItsRange : Obligations.DecodeReadsOnlyItsRange := by
  unfold Obligations.DecodeReadsOnlyItsRange
  intro s st target hforward hlen hlen' hbytes
  refine ⟨_, _, step_decodeTo_forward rfl hlen hforward, step_decodeTo_forward rfl hlen' hforward, ?_, rfl⟩
  have hrange : s.core.currentPack.toNat + (target.toNat - s.core.currentPack.toNat) = target.toNat := by omega
  have hpacks := packsOf_congr st s.env.stream s.core.currentPack.toNat (target.toNat - s.core.currentPack.toNat)
    (by rwa [hrange])
  dsimp only [batchCore]
  rw [hpacks]

/-- Settles O39: byte `n` of pack `k` is byte `24k + n` of the supplied stream. -/
theorem fetchReadsThePackBytes : Obligations.FetchReadsThePackBytes := by
  unfold Obligations.FetchReadsThePackBytes
  intro s bytes rest hp
  refine ⟨PackStream.ofBytes bytes, ?_, rfl, fun k n hn hk => ?_⟩
  · rw [step_action hp, actionOutputs, List.append_nil]
    rfl
  · simp only [PackStream.fetchPack, Vector.getElem_ofFn]
    exact ofBytes_byteAt bytes (24 * k + n) (by omega)

/-! ## One pack -/

/-- A DECODE_TO of the index after the cursor runs the pack at the cursor (40_decoder_dispatch.md R102, R106). -/
theorem step_one_pack {s : State} {rest : List HostAction} (hcursor : s.core.currentPack.toNat + 1 < 2 ^ 32)
    (hlen : 24 * (s.core.currentPack.toNat + 1) ≤ s.env.stream.length)
    (hp : s.pending = .command (.decodeTo (s.core.currentPack + 1)) :: rest) :
    step s = .next { s with
      core := (coreEffect (decodePack (s.env.stream.fetchPack s.core.currentPack.toNat)) s.core).withCurrentPack
        (s.core.currentPack + 1)
      pending := rest
      outputs := s.outputs ++ [.decodeResult .ok] } := by
  have hnext : (s.core.currentPack + 1).toNat = s.core.currentPack.toNat + 1 := by
    rw [BitVec.toNat_add]
    exact Nat.mod_eq_of_lt hcursor
  rw [step_decodeTo_forward hp (by rwa [hnext]) (by rw [hnext]; exact Nat.le_succ _), batchCore_one _ _ hcursor]

/-- Settles O40: the batch is of the one pack at the cursor. -/
theorem stepRunsTheDecodedInstruction : Obligations.StepRunsTheDecodedInstruction := by
  unfold Obligations.StepRunsTheDecodedInstruction
  rintro s t _ rest hcursor hlen hp rfl hexec
  obtain rfl := exec_next hexec
  refine (step_one_pack hcursor hlen hp).trans ?_
  dsimp only [withCore_core, withCore_outputs]
  generalize coreEffect _ _ = d
  rfl

/-- Settles O41: the placed pack is the one fetched at the cursor, and the placed stream is long enough. -/
theorem placedWordRunsNext : Obligations.PlacedWordRunsNext := by
  unfold Obligations.PlacedWordRunsNext
  intro s nbits w hcursor
  have hnotLast : s.core.currentPack ≠ BitVec.allOnes 32 := by
    rintro hlast
    rw [hlast] at hcursor
    exact absurd hcursor (by decide)
  refine ⟨_, _, s.env.stream.placePack s.core.currentPack.toNat (tablePack nbits w), decodeTableWord_eq nbits w, exec_eq _ s, ?_⟩
  have hplaced : s.withFetchWord nbits w =
      (s.withStream (s.env.stream.placePack s.core.currentPack.toNat (tablePack nbits w))).withPending
        (.command (.decodeTo (s.core.currentPack + 1)) :: s.pending) := by
    simp only [State.withFetchWord, placeNextPack, if_neg hnotLast]
    rfl
  rw [hplaced]
  refine Eq.trans (step_one_pack (rest := s.pending) hcursor (Nat.le_max_right _ _) rfl) ?_
  simp only [withPending_env_stream, withStream_env_stream, withPending_core, withStream_core, fetch_placePack]
  rfl

/-! ## What determines a transition -/

/-- Settles O38: by the elements of ResetState. -/
theorem powerOnIsResetState : Obligations.PowerOnIsResetState :=
  ⟨Decoder.reset_pal_getElem, Decoder.reset_cell, Decoder.reset_blockFlag, rfl, rfl, rfl, rfl⟩

/-- Settles O42: a step with nothing pending is idle. -/
theorem idleHoldsState : Obligations.IdleHoldsState := fun _ => step_idle

/-- A command puts out one output (00_scope.md R10). -/
theorem actionOutputs_command (c : Command) (d : Decoder) (e : Env) : ∃ o, actionOutputs (.command c) d e = [o] := by
  cases c <;> exact ⟨_, rfl⟩

/-- Settles O44: an action's effect is a function of the core and the environment alone. -/
theorem transitionIsDeterminedByCoreCommandEnv : Obligations.TransitionIsDeterminedByCoreCommandEnv := by
  unfold Obligations.TransitionIsDeterminedByCoreCommandEnv
  intro s s' c rest rest' hp hp' hcore henv
  obtain ⟨o, ho⟩ := actionOutputs_command c s.core s.env
  refine ⟨actionCore (.command c) s.core s.env, actionEnv (.command c) s.core s.env, o, ?_, ?_⟩
  · rw [step_action hp, ho]
  · rw [step_action hp', ← hcore, ← henv, ho]

/-- Settles O45: by the cursor after each action. -/
theorem onlyResetAndDecodeMoveTheCursor : Obligations.OnlyResetAndDecodeMoveTheCursor := by
  unfold Obligations.OnlyResetAndDecodeMoveTheCursor
  intro s
  cases hp : s.pending with
  | nil => exact ⟨s, step_idle hp, .inl rfl⟩
  | cons a rest =>
    refine ⟨_, step_action hp, ?_⟩
    cases a with
    | command c =>
      cases c with
      | reset => exact .inr (.inl ⟨rest, rfl, rfl⟩)
      | decodeTo target =>
        by_cases hlen : s.env.stream.length < 24 * target.toNat
        · left
          rw [actionCore_decodeTo_currentPack, if_pos hlen]
        · right; right
          refine ⟨target, rest, rfl, Nat.not_lt.1 hlen, ?_⟩
          rw [actionCore_decodeTo_currentPack, if_neg hlen]
      | renderFrame => exact .inl (renderCore_currentPack s.core)
    | supplyStream bytes => exact .inl rfl
    | supplyFrameBuffer written => exact .inl rfl

end Sys2Proof.Machine
end
